-- ==== Sys2Proof/Word.lean ====
section
/-! DEFINITION. The widths of the machine's values (00_scope.md R9, R11, R12). Every value is an unsigned bit vector;
bit 0 is the least significant bit. -/

namespace Sys2Proof

/-- A memory cell, a general register, a timer or an immediate `kk`: 8 bits. -/
abbrev Byte := BitVec 8

/-- An opcode, I, PC or a stack entry: 16 bits. -/
abbrev Word := BitVec 16

/-- A register index `x` or `y`, a row count `n` or a key index: 4 bits. -/
abbrev Nibble := BitVec 4

/-- An address field `nnn`: 12 bits. -/
abbrev Addr := BitVec 12

/-- One row of the framebuffer in its word form, most significant bit leftmost (10_state.md R43). -/
abbrev RowWord := BitVec 64

end Sys2Proof
end

