-- ==== Sys2Proof/Config.lean ====
section
/-! DEFINITION. What an implementation of the core fixes: the fixed sizes of 00_scope.md R9, the parameters the spec leaves
open (00_scope.md R10), and the two draws (00_scope.md R17). -/

namespace Sys2Proof

namespace Config

/-- Bytes of memory: addresses 0x000..0xFFF (00_scope.md R9, 20_memory.md R60). -/
def memSize : Nat := 4096

/-- Where a program image is loaded and where execution starts (00_scope.md R9). -/
def progStart : Nat := 0x200

/-- The longest image `load` accepts (00_scope.md R9, 70_reset_and_hazards.md R275). -/
def maxRom : Nat := 3584

/-- Bytes of one font glyph (00_scope.md R9). -/
def fontStride : Nat := 5

/-- Bytes of the whole font: 16 glyphs of 5 bytes (00_scope.md R9). -/
def fontSize : Nat := 80

/-- The draw `rnd` of Cxkk (00_scope.md R17, 41_alu.md R153, decision D25): the byte of the n-th draw, under no law.
DESIGN CHOICE (log 3), safe: nothing can be proved of its value. -/
opaque rnd : Nat → Byte

/-- The draw `wait_key_choice` of Fx0A (00_scope.md R17, 44_keys_timers.md R214, decision D18): which of several pressed keys
the n-th draw takes. DESIGN CHOICE (log 4), safe: nothing can be proved of its value. -/
opaque waitKeyChoice : Nat → Nibble

end Config

/-- The parameters a Machine is constructed with, fixed for its life and invisible to programs (00_scope.md R10,
10_state.md R47, 60_exceptions.md R248). -/
structure Params where
  /-- `FONT_BASE`: the address of glyph 0 (decision D3, left open by the spec). -/
  fontBase : Addr
  /-- `FONT_GLYPHS`: glyph d is bytes 5*d .. 5*d+4 (decision D4). -/
  fontGlyphs : Vector Byte 80
  /-- `FX1E_VF_THRESHOLD`: Fx1E sets VF iff I + V[x] exceeds it (decision D16). -/
  fx1eThreshold : Word
  /-- `LOAD_STORE_INCREMENTS_I`: whether Fx55 and Fx65 add x + 1 to I (decision D17). -/
  loadStoreIncrementsI : Bool
  deriving DecidableEq, Repr

end Sys2Proof
end

