-- ==== Sys2Proof/Syntax.lean ====
section
/-! DEFINITION. The 34 instruction forms (30_encoding.md R97), one constructor per row of spec/opcode_table.json.

A constructor holds EVERY nibble of its opcode that the row does not fix, also the nibbles the form ignores (30_encoding.md R96:
`x` of CLS and RET, `n` of 5xyn and 9xyn) or does not read (`y` of 8xy6 and 8xyE, 41_alu.md R150, R152): the error record of
a halt names the whole fetched opcode (10_state.md R46). DEDUCED (log 10), safe. -/

namespace Sys2Proof

inductive Instr where
  /-- 0xE0: clear the display; `x` is ignored. -/
  | cls (x : Nibble)
  /-- 0xEE: return from subroutine; `x` is ignored. -/
  | ret (x : Nibble)
  /-- 1nnn: jump. -/
  | jp (nnn : Addr)
  /-- 2nnn: call. -/
  | call (nnn : Addr)
  /-- 3xkk: skip if V[x] = kk. -/
  | seImm (x : Nibble) (kk : Byte)
  /-- 4xkk: skip if V[x] ≠ kk. -/
  | sneImm (x : Nibble) (kk : Byte)
  /-- 5xyn: skip if V[x] = V[y]; `n` is ignored. -/
  | seReg (x y n : Nibble)
  /-- 6xkk: V[x] = kk. -/
  | ldImm (x : Nibble) (kk : Byte)
  /-- 7xkk: V[x] += kk, no flag. -/
  | addImm (x : Nibble) (kk : Byte)
  /-- 8xy0: V[x] = V[y]. -/
  | ldReg (x y : Nibble)
  /-- 8xy1: OR. -/
  | orReg (x y : Nibble)
  /-- 8xy2: AND. -/
  | andReg (x y : Nibble)
  /-- 8xy3: XOR. -/
  | xorReg (x y : Nibble)
  /-- 8xy4: add with carry out. -/
  | addReg (x y : Nibble)
  /-- 8xy5: V[x] - V[y] with NOT-borrow. -/
  | sub (x y : Nibble)
  /-- 8xy6: shift right; `y` is not read. -/
  | shr (x y : Nibble)
  /-- 8xy7: V[y] - V[x] with NOT-borrow. -/
  | subn (x y : Nibble)
  /-- 8xyE: shift left; `y` is not read. -/
  | shl (x y : Nibble)
  /-- 9xyn: skip if V[x] ≠ V[y]; `n` is ignored. -/
  | sneReg (x y n : Nibble)
  /-- Annn: I = nnn. -/
  | ldI (nnn : Addr)
  /-- Bnnn: jump to nnn + V[0]. -/
  | jpV0 (nnn : Addr)
  /-- Cxkk: V[x] = random byte AND kk. -/
  | rnd (x : Nibble) (kk : Byte)
  /-- Dxyn: draw an n-row sprite at (V[x], V[y]). -/
  | drw (x y n : Nibble)
  /-- Ex9E: skip if key V[x] is pressed. -/
  | skp (x : Nibble)
  /-- ExA1: skip if key V[x] is not pressed. -/
  | sknp (x : Nibble)
  /-- Fx07: V[x] = DT. -/
  | ldVxDt (x : Nibble)
  /-- Fx0A: wait for a key, V[x] = its index. -/
  | ldVxK (x : Nibble)
  /-- Fx15: DT = V[x]. -/
  | ldDtVx (x : Nibble)
  /-- Fx18: ST = V[x]. -/
  | ldStVx (x : Nibble)
  /-- Fx1E: I += V[x], VF = overflow. -/
  | addIVx (x : Nibble)
  /-- Fx29: I = address of the glyph of V[x]. -/
  | ldFVx (x : Nibble)
  /-- Fx33: store the decimal digits of V[x] at I. -/
  | ldBVx (x : Nibble)
  /-- Fx55: store V[0]..V[x] at I. -/
  | ldMemVx (x : Nibble)
  /-- Fx65: load V[0]..V[x] from I. -/
  | ldVxMem (x : Nibble)
  deriving DecidableEq, Repr

end Sys2Proof
end

