-- ==== Sys2Proof/WellFormed.lean ====
section
/-! DEFINITION. What must hold of the data handed to the machine from outside.

An instruction needs no check of its own: every field of `Instr` has exactly the width its encoding gives it (30_encoding.md
R91), so every term of `Instr` is the reading of some opcode. What can be ill-formed are the parameters a Machine is
constructed with and the image it is loaded with. -/

namespace Sys2Proof

/-- Every term of `Instr` is well-formed: its field types carry the bounds (30_encoding.md R91, R93). -/
def Instr.wellFormed (_ : Instr) : Bool := true

/-- `FONT_BASE` is legal iff the 80 glyph bytes lie inside 0x000-0x1FF (00_scope.md R10: 0x000 <= FONT_BASE <= 0x1B0). The
other parameters are legal at every value of their types. -/
def Params.wellFormed (p : Params) : Bool := p.fontBase.toNat ≤ 0x1B0

/-- An image that `load` accepts: it fits in 0x200-0xFFF (70_reset_and_hazards.md R275). -/
def imageFits (image : List Byte) : Bool := image.length ≤ Config.maxRom

end Sys2Proof
end

