-- ==== Sys2Proof/Decode.lean ====
section
/-! DEFINITION. Decoding (30_encoding.md R90-R101), the opcode table of R97 as data, and the encoder. -/

namespace Sys2Proof

/-! ### Fields (30_encoding.md R92) -/

/-- `op = opcode[15:12]`. -/
def opField (w : Word) : Nibble := w.extractLsb' 12 4
/-- `x = opcode[11:8]`. -/
def xField (w : Word) : Nibble := w.extractLsb' 8 4
/-- `y = opcode[7:4]`. -/
def yField (w : Word) : Nibble := w.extractLsb' 4 4
/-- `n = opcode[3:0]`. -/
def nField (w : Word) : Nibble := w.extractLsb' 0 4
/-- `kk = opcode[7:0]`. -/
def kkField (w : Word) : Byte := w.extractLsb' 0 8
/-- `nnn = opcode[11:0]`. -/
def nnnField (w : Word) : Addr := w.extractLsb' 0 12

/-! ### Dispatch (30_encoding.md R94-R98) -/

/-- Family 0x0 dispatches on `kk` alone; the `x` nibble is not examined (30_encoding.md R96, decision D10). -/
def decodeFamily0 (w : Word) : Option Instr :=
  match kkField w with
  | 0xE0#8 => some (.cls (xField w))
  | 0xEE#8 => some (.ret (xField w))
  | _ => none

/-- Family 0x8 dispatches on `n`. -/
def decodeFamily8 (w : Word) : Option Instr :=
  match nField w with
  | 0x0#4 => some (.ldReg (xField w) (yField w))
  | 0x1#4 => some (.orReg (xField w) (yField w))
  | 0x2#4 => some (.andReg (xField w) (yField w))
  | 0x3#4 => some (.xorReg (xField w) (yField w))
  | 0x4#4 => some (.addReg (xField w) (yField w))
  | 0x5#4 => some (.sub (xField w) (yField w))
  | 0x6#4 => some (.shr (xField w) (yField w))
  | 0x7#4 => some (.subn (xField w) (yField w))
  | 0xE#4 => some (.shl (xField w) (yField w))
  | _ => none

/-- Family 0xE dispatches on `kk`. -/
def decodeFamilyE (w : Word) : Option Instr :=
  match kkField w with
  | 0x9E#8 => some (.skp (xField w))
  | 0xA1#8 => some (.sknp (xField w))
  | _ => none

/-- Family 0xF dispatches on `kk`. -/
def decodeFamilyF (w : Word) : Option Instr :=
  match kkField w with
  | 0x07#8 => some (.ldVxDt (xField w))
  | 0x0A#8 => some (.ldVxK (xField w))
  | 0x15#8 => some (.ldDtVx (xField w))
  | 0x18#8 => some (.ldStVx (xField w))
  | 0x1E#8 => some (.addIVx (xField w))
  | 0x29#8 => some (.ldFVx (xField w))
  | 0x33#8 => some (.ldBVx (xField w))
  | 0x55#8 => some (.ldMemVx (xField w))
  | 0x65#8 => some (.ldVxMem (xField w))
  | _ => none

/-- The form of an opcode by its high nibble (30_encoding.md R94, R95); `none` is an unimplemented instruction (R98). -/
def decodeOpcode (w : Word) : Option Instr :=
  match opField w with
  | 0x0#4 => decodeFamily0 w
  | 0x1#4 => some (.jp (nnnField w))
  | 0x2#4 => some (.call (nnnField w))
  | 0x3#4 => some (.seImm (xField w) (kkField w))
  | 0x4#4 => some (.sneImm (xField w) (kkField w))
  | 0x5#4 => some (.seReg (xField w) (yField w) (nField w))
  | 0x6#4 => some (.ldImm (xField w) (kkField w))
  | 0x7#4 => some (.addImm (xField w) (kkField w))
  | 0x8#4 => decodeFamily8 w
  | 0x9#4 => some (.sneReg (xField w) (yField w) (nField w))
  | 0xA#4 => some (.ldI (nnnField w))
  | 0xB#4 => some (.jpV0 (nnnField w))
  | 0xC#4 => some (.rnd (xField w) (kkField w))
  | 0xD#4 => some (.drw (xField w) (yField w) (nField w))
  | 0xE#4 => decodeFamilyE w
  | 0xF#4 => decodeFamilyF w
  | _ => none

/-- Why bytes are no instruction. -/
inductive DecodeReject where
  /-- Fewer than the two bytes every instruction has (30_encoding.md R90). -/
  | truncated
  /-- The opcode matches no row of the table (30_encoding.md R98). -/
  | unimplementedInstruction (opcode : Word)
  deriving DecidableEq, Repr

/-- Two bytes, the high byte at the lower address, as one opcode (30_encoding.md R90, 20_memory.md R66). -/
def opcodeOfBytes (hi lo : Byte) : Word := BitVec.cast (show 8 + 8 = 16 from rfl) (hi ++ lo)

/-- Decode the instruction at the head of a byte sequence: total, and each rejection has a name (30_encoding.md R100, R101). -/
def decode : List Byte → Except DecodeReject (Instr × List Byte)
  | hi :: lo :: rest =>
    match decodeOpcode (opcodeOfBytes hi lo) with
    | some i => .ok (i, rest)
    | none => .error (.unimplementedInstruction (opcodeOfBytes hi lo))
  | _ => .error .truncated

/-! ### The table's words -/

/-- The two bytes, as memory holds them, of the opcode whose low `nbits` bits are `w`; the bits above are 0. -/
def tableBytes (nbits w : Nat) : List Byte :=
  let opcode : Word := BitVec.ofNat 16 (w % 2 ^ nbits)
  [opcode.extractLsb' 8 8, opcode.extractLsb' 0 8]

/-- The instruction the decoder reads from a word numbered as spec/opcode_table.json numbers it. -/
def decodeTableWord (nbits w : Nat) : Option Instr :=
  match decode (tableBytes nbits w) with
  | .ok (i, _) => some i
  | .error _ => none

/-! ### The opcode table (30_encoding.md R97) -/

/-- One row of the table: an opcode is of this form iff `opcode & mask = pattern`. -/
structure OpcodeRow where
  mnemonic : String
  pattern : Word
  mask : Word
  deriving DecidableEq, Repr

/-- `(opcode & mask) == match` (30_encoding.md R97). -/
def OpcodeRow.selects (r : OpcodeRow) (w : Word) : Bool := w &&& r.mask == r.pattern

/-- The row of 30_encoding.md R97 an instruction belongs to. -/
def rowOf : Instr → OpcodeRow
  | .cls _ => ⟨"CLS", 0x00E0#16, 0xF0FF#16⟩
  | .ret _ => ⟨"RET", 0x00EE#16, 0xF0FF#16⟩
  | .jp _ => ⟨"JP", 0x1000#16, 0xF000#16⟩
  | .call _ => ⟨"CALL", 0x2000#16, 0xF000#16⟩
  | .seImm _ _ => ⟨"SE_IMM", 0x3000#16, 0xF000#16⟩
  | .sneImm _ _ => ⟨"SNE_IMM", 0x4000#16, 0xF000#16⟩
  | .seReg _ _ _ => ⟨"SE_REG", 0x5000#16, 0xF000#16⟩
  | .ldImm _ _ => ⟨"LD_IMM", 0x6000#16, 0xF000#16⟩
  | .addImm _ _ => ⟨"ADD_IMM", 0x7000#16, 0xF000#16⟩
  | .ldReg _ _ => ⟨"LD_REG", 0x8000#16, 0xF00F#16⟩
  | .orReg _ _ => ⟨"OR", 0x8001#16, 0xF00F#16⟩
  | .andReg _ _ => ⟨"AND", 0x8002#16, 0xF00F#16⟩
  | .xorReg _ _ => ⟨"XOR", 0x8003#16, 0xF00F#16⟩
  | .addReg _ _ => ⟨"ADD_REG", 0x8004#16, 0xF00F#16⟩
  | .sub _ _ => ⟨"SUB", 0x8005#16, 0xF00F#16⟩
  | .shr _ _ => ⟨"SHR", 0x8006#16, 0xF00F#16⟩
  | .subn _ _ => ⟨"SUBN", 0x8007#16, 0xF00F#16⟩
  | .shl _ _ => ⟨"SHL", 0x800E#16, 0xF00F#16⟩
  | .sneReg _ _ _ => ⟨"SNE_REG", 0x9000#16, 0xF000#16⟩
  | .ldI _ => ⟨"LD_I", 0xA000#16, 0xF000#16⟩
  | .jpV0 _ => ⟨"JP_V0", 0xB000#16, 0xF000#16⟩
  | .rnd _ _ => ⟨"RND", 0xC000#16, 0xF000#16⟩
  | .drw _ _ _ => ⟨"DRW", 0xD000#16, 0xF000#16⟩
  | .skp _ => ⟨"SKP", 0xE09E#16, 0xF0FF#16⟩
  | .sknp _ => ⟨"SKNP", 0xE0A1#16, 0xF0FF#16⟩
  | .ldVxDt _ => ⟨"LD_VX_DT", 0xF007#16, 0xF0FF#16⟩
  | .ldVxK _ => ⟨"LD_VX_K", 0xF00A#16, 0xF0FF#16⟩
  | .ldDtVx _ => ⟨"LD_DT_VX", 0xF015#16, 0xF0FF#16⟩
  | .ldStVx _ => ⟨"LD_ST_VX", 0xF018#16, 0xF0FF#16⟩
  | .addIVx _ => ⟨"ADD_I_VX", 0xF01E#16, 0xF0FF#16⟩
  | .ldFVx _ => ⟨"LD_F_VX", 0xF029#16, 0xF0FF#16⟩
  | .ldBVx _ => ⟨"LD_B_VX", 0xF033#16, 0xF0FF#16⟩
  | .ldMemVx _ => ⟨"LD_MEM_VX", 0xF055#16, 0xF0FF#16⟩
  | .ldVxMem _ => ⟨"LD_VX_MEM", 0xF065#16, 0xF0FF#16⟩

/-- All 34 rows, in the table's order. -/
def opcodeTable : List OpcodeRow :=
  [rowOf (.cls 0), rowOf (.ret 0), rowOf (.jp 0), rowOf (.call 0), rowOf (.seImm 0 0), rowOf (.sneImm 0 0),
   rowOf (.seReg 0 0 0), rowOf (.ldImm 0 0), rowOf (.addImm 0 0), rowOf (.ldReg 0 0), rowOf (.orReg 0 0),
   rowOf (.andReg 0 0), rowOf (.xorReg 0 0), rowOf (.addReg 0 0), rowOf (.sub 0 0), rowOf (.shr 0 0),
   rowOf (.subn 0 0)]
  ++ [rowOf (.shl 0 0), rowOf (.sneReg 0 0 0), rowOf (.ldI 0), rowOf (.jpV0 0), rowOf (.rnd 0 0),
   rowOf (.drw 0 0 0), rowOf (.skp 0), rowOf (.sknp 0), rowOf (.ldVxDt 0), rowOf (.ldVxK 0), rowOf (.ldDtVx 0),
   rowOf (.ldStVx 0), rowOf (.addIVx 0), rowOf (.ldFVx 0), rowOf (.ldBVx 0), rowOf (.ldMemVx 0), rowOf (.ldVxMem 0)]

/-! ### Encoding, written from the patterns of spec/opcode_table.json -/

/-- Format NNN: op, nnn. -/
def packNNN (op : Nibble) (nnn : Addr) : Word := BitVec.cast (show 4 + 12 = 16 from rfl) (op ++ nnn)

/-- Formats XKK, XSEL and SEL: op, x, kk. -/
def packXKK (op x : Nibble) (kk : Byte) : Word := 
  BitVec.cast (show 4 + 4 + 8 = 16 from rfl) (op ++ x ++ kk)

/-- Format XYN: op, x, y, n. -/
def packXYN (op x y n : Nibble) : Word := 
  BitVec.cast (show 4 + 4 + 4 + 4 = 16 from rfl) (op ++ x ++ y ++ n)

/-- The opcode of an instruction (30_encoding.md R91, R97). -/
def encode : Instr → Word
  | .cls x => packXKK 0x0#4 x 0xE0#8
  | .ret x => packXKK 0x0#4 x 0xEE#8
  | .jp nnn => packNNN 0x1#4 nnn
  | .call nnn => packNNN 0x2#4 nnn
  | .seImm x kk => packXKK 0x3#4 x kk
  | .sneImm x kk => packXKK 0x4#4 x kk
  | .seReg x y n => packXYN 0x5#4 x y n
  | .ldImm x kk => packXKK 0x6#4 x kk
  | .addImm x kk => packXKK 0x7#4 x kk
  | .ldReg x y => packXYN 0x8#4 x y 0x0#4
  | .orReg x y => packXYN 0x8#4 x y 0x1#4
  | .andReg x y => packXYN 0x8#4 x y 0x2#4
  | .xorReg x y => packXYN 0x8#4 x y 0x3#4
  | .addReg x y => packXYN 0x8#4 x y 0x4#4
  | .sub x y => packXYN 0x8#4 x y 0x5#4
  | .shr x y => packXYN 0x8#4 x y 0x6#4
  | .subn x y => packXYN 0x8#4 x y 0x7#4
  | .shl x y => packXYN 0x8#4 x y 0xE#4
  | .sneReg x y n => packXYN 0x9#4 x y n
  | .ldI nnn => packNNN 0xA#4 nnn
  | .jpV0 nnn => packNNN 0xB#4 nnn
  | .rnd x kk => packXKK 0xC#4 x kk
  | .drw x y n => packXYN 0xD#4 x y n
  | .skp x => packXKK 0xE#4 x 0x9E#8
  | .sknp x => packXKK 0xE#4 x 0xA1#8
  | .ldVxDt x => packXKK 0xF#4 x 0x07#8
  | .ldVxK x => packXKK 0xF#4 x 0x0A#8
  | .ldDtVx x => packXKK 0xF#4 x 0x15#8
  | .ldStVx x => packXKK 0xF#4 x 0x18#8
  | .addIVx x => packXKK 0xF#4 x 0x1E#8
  | .ldFVx x => packXKK 0xF#4 x 0x29#8
  | .ldBVx x => packXKK 0xF#4 x 0x33#8
  | .ldMemVx x => packXKK 0xF#4 x 0x55#8
  | .ldVxMem x => packXKK 0xF#4 x 0x65#8

end Sys2Proof
end

