-- ==== Sys2Proof/Machine/Reset.lean ====
section
/-! DEFINITION. The values construction gives the machine: the reference parameters (00_scope.md R10), what a memory cell
nothing has written reads as (70_reset_and_hazards.md R272, R273; 10_state.md R51), and the entry point
(70_reset_and_hazards.md R271). -/

namespace Sys2Proof.Machine

/-- The conventional hexadecimal font, digits 0 to 7 (70_reset_and_hazards.md R273). PRESUMED (log 2), unsafe for a claim about
glyph pixels. -/
def fontDigits0To7 : List Byte :=
  [0xF0, 0x90, 0x90, 0x90, 0xF0,
   0x20, 0x60, 0x20, 0x20, 0x70,
   0xF0, 0x10, 0xF0, 0x80, 0xF0,
   0xF0, 0x10, 0xF0, 0x10, 0xF0,
   0x90, 0x90, 0xF0, 0x10, 0x10,
   0xF0, 0x80, 0xF0, 0x10, 0xF0,
   0xF0, 0x80, 0xF0, 0x90, 0xF0,
   0xF0, 0x10, 0x20, 0x40, 0x40]

/-- The same font, digits 8 to F (70_reset_and_hazards.md R273). -/
def fontDigits8ToF : List Byte :=
  [0xF0, 0x90, 0xF0, 0x90, 0xF0,
   0xF0, 0x90, 0xF0, 0x10, 0xF0,
   0xF0, 0x90, 0xF0, 0x90, 0x90,
   0xE0, 0x90, 0xE0, 0x90, 0xE0,
   0xF0, 0x80, 0x80, 0x80, 0xF0,
   0xE0, 0x90, 0x90, 0x90, 0xE0,
   0xF0, 0x80, 0xF0, 0x80, 0xF0,
   0xF0, 0x80, 0xF0, 0x80, 0x80]

/-- The reference value of every parameter (00_scope.md R10). DESIGN CHOICE (log 1): only `State.reset` takes it; statements
hold for every `Params`. -/
def referenceParams : Params where
  fontBase := 0x000#12
  fontGlyphs := ⟨(fontDigits0To7 ++ fontDigits8ToF).toArray, by decide⟩
  fx1eThreshold := 0x0FFF#16
  loadStoreIncrementsI := false

/-- What an address that memory does not list reads as: its content right after construction, a glyph byte inside
FONT_BASE..FONT_BASE+79 (70_reset_and_hazards.md R272) and 0x00 elsewhere (10_state.md R51, decision D2; log 9). -/
def resetByte (p : Params) (a : Nat) : Byte :=
  if h : p.fontBase.toNat ≤ a ∧ a - p.fontBase.toNat < 80 then p.fontGlyphs[a - p.fontBase.toNat]
  else 0x00#8

/-- The entry point (70_reset_and_hazards.md R271, decision D1). -/
def resetPc : Word := 0x0200#16

end Sys2Proof.Machine
end

