-- ==== Sys2Proof/Machine/State.lean ====
section
/-! DEFINITION. The Machine: all state the spec gives the core (10_state.md R30), as plain data, and its value after
construction (10_state.md R51). -/

namespace Sys2Proof.Machine

/-- Why a step halts (60_exceptions.md R232). -/
inductive HaltReason where
  /-- Code 1: the fetched opcode matches no row of the table. -/
  | unimplementedInstruction
  /-- Code 2: a CALL with 16 entries in use (decision D7). -/
  | stackOverflow
  /-- Code 3: a RET with an empty stack (decision D7). -/
  | stackUnderflow
  /-- Code 4: an effective address above 0xFFF (decision D6). -/
  | addressOutOfRange
  /-- Code 5: Ex9E or ExA1 with V[x] > 0x0F (decision D19). -/
  | keyIndexOutOfRange
  deriving DecidableEq, Repr

/-- The error record (10_state.md R46): the opcode is absent when the fetch itself halted. -/
structure ErrorRecord where
  reason : HaltReason
  opcode : Option Word
  pc : Word
  deriving DecidableEq, Repr

/-- STATUS (10_state.md R46). -/
inductive RunStatus where
  | running
  | halted (rec : ErrorRecord)
  deriving DecidableEq, Repr

/-- What stops the host's use of the machine with an error that is no state of the machine. -/
inductive Fault where
  /-- LoadError: raised by `State.load` alone, for an image longer than 3584 bytes (60_exceptions.md R231,
  70_reset_and_hazards.md R275). No step raises it. Safe: the machine keeps its state, and `Session.act` hands the error to the
  host as its reply. -/
  | loadError
  deriving DecidableEq, Repr

/-- What the spec puts outside the contract: the model gives it no meaning. -/
inductive Refusal where
  /-- An instruction that has no meaning yet; raised by `exec` only. Safe. No arm of `exec` raises it. -/
  | notModelled (mnemonic : String)
  /-- `step()` on a halted Machine (30_encoding.md R105, 60_exceptions.md R234, 93_implementation_defined.md U23: refuse); raised
  by `step` only. Safe: the machine never goes on past a halt. -/
  | steppedWhileHalted
  /-- A second `load`, also after a LoadError, or a `load` after a step (70_reset_and_hazards.md R276,
  93_implementation_defined.md U25: refuse); raised by `Session.act` only. Safe. -/
  | loadOutsideLifecycle
  /-- A write of KEYS to a halted Machine, which has no step to come (60_exceptions.md R234, R248); raised by `Session.act` only.
  Safe. -/
  | keysOutsideLifecycle
  deriving DecidableEq, Repr

/-- MEM: the cells whose byte differs from what an unlisted address reads as, by rising address (`Memory.wf`). -/
abbrev Memory := List Host.Cell

/-- FB in its word form: 32 rows of one bit per column, most significant bit leftmost (10_state.md R43; log 12). -/
abbrev Framebuffer := Vector RowWord 32

/-- The Machine (10_state.md R30). -/
structure State where
  /-- The parameters it was constructed with (00_scope.md R10, 10_state.md R47); no step writes them (log 1). -/
  params : Params
  /-- MEM (20_memory.md R60). -/
  mem : Memory
  /-- V[0x0]..V[0xF] (10_state.md R31); V[0xF] is also the flag VF (R32). -/
  v : Vector Byte 16
  /-- I (10_state.md R37). -/
  i : Word
  /-- PC (10_state.md R34). -/
  pc : Word
  /-- SP, the number of stack entries in use, 0..16 (10_state.md R38). -/
  sp : Fin 17
  /-- STACK[0]..STACK[15] (10_state.md R38). -/
  stack : Vector Word 16
  /-- DT, the delay timer (10_state.md R39). -/
  dt : Byte
  /-- ST, the sound timer (10_state.md R40). -/
  st : Byte
  /-- KEYS[0x0]..KEYS[0xF], true when pressed; only the host writes them (10_state.md R41). -/
  keys : Vector Bool 16
  /-- FB (10_state.md R42, R43). -/
  fb : Framebuffer
  /-- DISP_CHANGED (10_state.md R44). -/
  dispChanged : Bool
  /-- BEEP (10_state.md R45). -/
  beep : Bool
  /-- STATUS (10_state.md R46). -/
  status : RunStatus
  /-- The MODEL'S OWN field, not the spec's: how many draws have been taken, so that each draw of Cxkk and Fx0A is a free value
  of its own (00_scope.md R17; log 5). -/
  draws : Nat
  deriving DecidableEq, Repr

/-- A Machine right after construction with parameters `p` (70_reset_and_hazards.md R270-R273, 10_state.md R51). A
FONT_BASE above 0x1B0 is not checked: DESIGN CHOICE (log 26). -/
def State.construct (p : Params) : State where
  params := p
  mem := []
  v := Vector.replicate 16 0x00#8
  i := 0x0000#16
  pc := resetPc
  sp := 0
  stack := Vector.replicate 16 0x0000#16
  dt := 0x00#8
  st := 0x00#8
  keys := Vector.replicate 16 false
  fb := Vector.replicate 32 0#64
  dispChanged := false
  beep := false
  status := .running
  draws := 0

/-- The Machine right after construction with the reference parameters (log 1). -/
def State.reset : State := State.construct referenceParams

end Sys2Proof.Machine
end

