-- ==== Sys2Proof/Machine/Ops.lean ====
section
/-! DEFINITION. The named operations over memory, registers, stack and outputs, the end of a completed instruction
(30_encoding.md R104), the hold (00_scope.md R16) and taking a halt (60_exceptions.md R233). There is no return from a halt
(60_exceptions.md R236), so no operation for one stands beside it. -/

namespace Sys2Proof.Machine

/-- The outcome of an instruction or of a step. -/
abbrev Result := Host.Outcome State Fault Refusal

/-! ### Memory (20_memory.md) -/

/-- The byte memory lists at an address, if it lists one. -/
def Memory.lookup : Memory → Nat → Option Byte
  | [], _ => none
  | (k, b) :: rest, a => if k = a then some b else Memory.lookup rest a

/-- Memory without an entry for address `a`. -/
def Memory.erase (a : Nat) (m : Memory) : Memory := m.filter fun c => c.1 != a

/-- Memory with the entry (a, b), put before the first higher address. -/
def Memory.insert (a : Nat) (b : Byte) : Memory → Memory
  | [] => [(a, b)]
  | (k, c) :: rest => if a < k then (a, b) :: (k, c) :: rest else (k, c) :: Memory.insert a b rest

/-- Put byte `b` at address `a`, whose unlisted value is `d`: no entry lists a byte that the address reads as anyway. -/
def Memory.store (d : Byte) (a : Nat) (b : Byte) (m : Memory) : Memory :=
  if b = d then Memory.erase a m else Memory.insert a b (Memory.erase a m)

/-- The canonical form of memory: addresses strictly rising and inside 0x000..0xFFF, and no entry equal to what an unlisted
address reads as. -/
abbrev Memory.wf (p : Params) (m : Memory) : Prop :=
  m.Pairwise (fun a b => a.1 < b.1) ∧ ∀ c ∈ m, c.1 < Config.memSize ∧ c.2 ≠ resetByte p c.1

/-- The content of the cell at `a` (20_memory.md R69). -/
def State.byteAt (s : State) (a : Nat) : Byte :=
  (Memory.lookup s.mem a).getD (resetByte s.params a)

/-- Replace the content of the cell at `a`. -/
def State.putByte (s : State) (a : Nat) (b : Byte) : State :=
  { s with mem := Memory.store (resetByte s.params a) a b s.mem }

/-- Replace the contents of the cells from `a` on, in rising order. -/
def State.putBytes : State → Nat → List Byte → State
  | s, _, [] => s
  | s, a, b :: bs => State.putBytes (s.putByte a b) (a + 1) bs

/-- Whether `n` accesses from `a` on all have an effective address of at most 0xFFF; the sum is exact (20_memory.md R63, R64).
No access is always in bounds (43_display.md R195, decision D13). -/
def inBounds (a n : Nat) : Bool := n == 0 || a + n ≤ Config.memSize

/-- `MemRead(a, 1)` (00_scope.md R14): none above 0xFFF. -/
def State.memRead (s : State) (a : Nat) : Option Byte :=
  if inBounds a 1 then some (s.byteAt a) else none

/-- Read `n` bytes from `a` on, or none of them when one lies above 0xFFF (20_memory.md R64). -/
def State.readBlock (s : State) (a n : Nat) : Option (List Byte) :=
  if inBounds a n then some ((List.range n).map fun j => s.byteAt (a + j)) else none

/-- Write bytes from `a` on, or none of them when one lies above 0xFFF (20_memory.md R64, R70). -/
def State.writeBlock (s : State) (a : Nat) (bs : List Byte) : Option State :=
  if inBounds a bs.length then some (s.putBytes a bs) else none

/-- `Fetch16(PC)`, big-endian, at any alignment; none when PC > 0xFFE (20_memory.md R66, R67). -/
def State.fetch16 (s : State) : Option Word :=
  if inBounds s.pc.toNat 2 then some (opcodeOfBytes (s.byteAt s.pc.toNat) (s.byteAt (s.pc.toNat + 1))) else none

/-! ### Registers (10_state.md R31-R40) -/

/-- `V[x]`. -/
def State.getV (s : State) (x : Nibble) : Byte := s.v[x.toNat]'x.isLt

/-- `V[x] <- b`. -/
def State.setV (s : State) (x : Nibble) (b : Byte) : State := { s with v := s.v.set x.toNat b x.isLt }

/-- `V[0xF]`, the flag register VF (10_state.md R32). -/
def vf : Nibble := 0xF#4

/-- `V[0]..V[x]`, in order. -/
def State.regsUpTo (s : State) (x : Nibble) : List Byte := s.v.toList.take (x.toNat + 1)

/-- `V[j] <- bytes[j]` for every j the list reaches; the registers above are unchanged (42_index_memory.md R176). -/
def State.loadRegs (s : State) (bytes : List Byte) : State :=
  { s with v := Vector.ofFn fun j : Fin 16 => (bytes[j.val]?).getD s.v[j] }

/-- `I <- w`. -/
def State.setI (s : State) (w : Word) : State := { s with i := w }

/-- `DT <- b`. -/
def State.setDt (s : State) (b : Byte) : State := { s with dt := b }

/-- `ST <- b`. -/
def State.setSt (s : State) (b : Byte) : State := { s with st := b }

/-- `FB <- f`. -/
def State.setFb (s : State) (f : Framebuffer) : State := { s with fb := f }

/-! ### Control (10_state.md R34-R36, R38) -/

/-- `pc <- target`. -/
def State.jump (s : State) (target : Word) : State := { s with pc := target }

/-- `pc <- pc + 2`, modulo 2^16 (10_state.md R35, R36). -/
def State.advance (s : State) : State := s.jump (s.pc + 2#16)

/-- A skip: `pc <- pc + 4` if the condition holds, else `pc <- pc + 2` (40_flow.md R120). -/
def State.skipIf (s : State) (c : Bool) : State := s.jump (if c then s.pc + 4#16 else s.pc + 2#16)

/-- Push: `STACK[SP] <- w; SP <- SP + 1`; none when 16 entries are in use (10_state.md R38). -/
def State.push (s : State) (w : Word) : Option State :=
  if h : s.sp.val < 16 then
    some { s with stack := s.stack.set s.sp.val w h, sp := ⟨s.sp.val + 1, Nat.succ_lt_succ h⟩ }
  else none

/-- Pop: `SP <- SP - 1`, then read `STACK[SP]`, which keeps its value; none when the stack is empty (10_state.md R38,
40_flow.md R121). -/
def State.pop (s : State) : Option (Word × State) :=
  if h : s.sp.val = 0 then none
  else
    have lt : s.sp.val - 1 < 16 := by have := s.sp.isLt; omega
    some (s.stack[s.sp.val - 1], { s with sp := ⟨s.sp.val - 1, Nat.lt_succ_of_lt lt⟩ })

/-- Take a draw: the next draw is another one (00_scope.md R17; log 5). -/
def State.takeDraw (s : State) : State := { s with draws := s.draws + 1 }

/-! ### The end of a poll (30_encoding.md R104) -/

/-- One timer's tick: one less if nonzero (60_exceptions.md R242). -/
def tick (t : Byte) : Byte := if t = 0#8 then 0#8 else t - 1#8

/-- What follows every completed instruction: DISP_CHANGED, the tick, then BEEP from the ticked ST (30_encoding.md R104,
60_exceptions.md R242, R243). -/
def State.finish (s : State) (drew : Bool) : State :=
  { s with dispChanged := drew, dt := tick s.dt, st := tick s.st, beep := tick s.st != 0#8 }

/-- The instruction completed: outcome Next. `drew` says whether it is CLS or DRW. -/
def complete (drew : Bool) (s : State) : Result := .next (s.finish drew)

/-- Outcome Hold: no state changes, nothing ticks, and the same instruction is polled again (00_scope.md R16). DEDUCED (log 7). -/
def hold (s : State) : Result := .next s

/-- `STATUS <- Halted(reason, opcode, pc)`; every other component keeps its value (60_exceptions.md R233). -/
def State.raiseHalt (s : State) (r : HaltReason) (opcode : Option Word) : State :=
  { s with status := .halted ⟨r, opcode, s.pc⟩ }

/-- Outcome Halt, the one way an error is taken (60_exceptions.md R231, R233; log 6): the halted Machine is the next state. -/
def halt (r : HaltReason) (opcode : Option Word) (s : State) : Result := .next (s.raiseHalt r opcode)

/-- The halt of a decoded instruction records its own opcode (60_exceptions.md R232). -/
def haltAt (i : Instr) (r : HaltReason) (s : State) : Result := halt r (some (encode i)) s

/-- The numeric code of a halt reason (60_exceptions.md R232, decision D36). -/
def haltCode : HaltReason → Nat
  | .unimplementedInstruction => 1
  | .stackOverflow => 2
  | .stackUnderflow => 3
  | .addressOutOfRange => 4
  | .keyIndexOutOfRange => 5

/-! ### Views of the framebuffer (10_state.md R42, R43) -/

/-- `FB[r][c]`: bit 63 - c of row word r. -/
def Framebuffer.pixel (f : Framebuffer) (r : Fin 32) (c : Fin 64) : Bool := f[r].getMsbD c

/-- The blank framebuffer (43_display.md R194). -/
def blankFb : Framebuffer := Vector.replicate 32 0#64

end Sys2Proof.Machine
end

