-- ==== Sys2Proof/Machine/Operands.lean ====
section
/-! DEFINITION. The operand forms: addresses, the I-relative effective address, the key index, the digit index and the pressed
key. -/

namespace Sys2Proof.Machine

/-- `zext_16(nnn)`: an address field as a PC or I value (30_encoding.md R93). -/
def zextAddr (nnn : Addr) : Word := nnn.setWidth 16

/-- `zext_16(V[0])`: the index of Bnnn (40_flow.md R128). -/
def zextByte (b : Byte) : Word := b.setWidth 16

/-- The effective address `I + j`, exact and unmasked (20_memory.md R63, 42_index_memory.md R170). -/
def State.effAddr (s : State) (j : Nat) : Nat := s.i.toNat + j

/-- `I <- (I + x + 1) mod 2^16` iff LOAD_STORE_INCREMENTS_I (42_index_memory.md R175, R176, decision D17). -/
def State.stepIndex (s : State) (x : Nibble) : State :=
  if s.params.loadStoreIncrementsI then s.setI (s.i + x.setWidth 16 + 1#16) else s

/-- The key named by a register value: KEYS[b], or none when b > 0x0F names no key (44_keys_timers.md R210). -/
def State.keyAt (s : State) (b : Byte) : Option Bool :=
  if h : b.toNat < 16 then some s.keys[b.toNat] else none

/-- The address of the glyph of a digit, the low nibble of `b` (42_index_memory.md R173, decision D5). -/
def State.glyphAddr (s : State) (b : Byte) : Word :=
  zextAddr s.params.fontBase + 5#16 * zextByte (b &&& 0x0F#8)

/-- The three decimal digits of a byte, hundreds first (42_index_memory.md R174). -/
def bcdDigits (b : Byte) : List Byte :=
  [BitVec.ofNat 8 (b.toNat / 100), BitVec.ofNat 8 (b.toNat / 10 % 10), BitVec.ofNat 8 (b.toNat % 10)]

/-- The pressed keys, lowest index first (44_keys_timers.md R214: `P`). -/
def State.pressedKeys (s : State) : List (Fin 16) := (List.finRange 16).filter fun k => s.keys[k]

/-- A member of `P` chosen by the draw `c`: none of an empty `P`, the one key when there is one, and any one when there are
several (44_keys_timers.md R214, decision D18). -/
def choosePressed (P : List (Fin 16)) (c : Nibble) : Option (Fin 16) :=
  match P with
  | [] => none
  | [k] => some k
  | k :: rest => some ((k :: rest).getD (c.toNat % (k :: rest).length) k)

/-- A key index as the value of a register. -/
def keyByte (k : Fin 16) : Byte := BitVec.ofNat 8 k.val

end Sys2Proof.Machine
end

