-- ==== Sys2Proof/Machine/Flags.lean ====
section
/-! DEFINITION. Every flag VF can take (10_state.md R48) and the pixel blend with its collision flag (43_display.md
R190-R193). -/

namespace Sys2Proof.Machine

/-- A flag as the value of VF. -/
def flagByte (c : Bool) : Byte := if c then 0x01#8 else 0x00#8

/-- 8xy4: the exact sum exceeds 255 (41_alu.md R148). -/
def carryFlag (a b : Byte) : Bool := a.toNat + b.toNat > 255

/-- 8xy5 and 8xy7: NOT borrow, the strict comparison minuend > subtrahend (41_alu.md R149, R151, R154). -/
def notBorrowFlag (minuend subtrahend : Byte) : Bool := minuend.toNat > subtrahend.toNat

/-- 8xy6: bit 0 before the shift (41_alu.md R150). -/
def shrFlag (b : Byte) : Bool := b.getLsbD 0

/-- 8xyE: bit 7 before the shift (41_alu.md R152). -/
def shlFlag (b : Byte) : Bool := b.getLsbD 7

/-- Fx1E: the exact sum I + V[x] exceeds FX1E_VF_THRESHOLD (42_index_memory.md R172). -/
def indexFlag (threshold i : Word) (b : Byte) : Bool := i.toNat + b.toNat > threshold.toNat

/-- A sprite row byte as a row of the framebuffer: bit 7 at column `cx mod 64`, the others to its right, wrapping round
(43_display.md R191, R192, decisions D14, D15). -/
def spriteRow (b cx : Byte) : RowWord := (b.setWidth 64 <<< 56).rotateRight (cx.toNat % 64)

/-- The framebuffer row sprite row `r` lands on (43_display.md R192). -/
def targetRow (cy : Byte) (r : Nat) : Fin 32 := Fin.ofNat 32 (cy.toNat + r)

/-- XOR the sprite rows onto the framebuffer from sprite row `r` on, and collect whether a lit pixel was turned off
(43_display.md R190, R193, R195). -/
def drawRows (cx cy : Byte) : Nat → List Byte → Framebuffer × Bool → Framebuffer × Bool
  | _, [], acc => acc
  | r, b :: rest, (f, collided) =>
    drawRows cx cy (r + 1) rest
      (f.set (targetRow cy r) (f[targetRow cy r] ^^^ spriteRow b cx),
       collided || (f[targetRow cy r] &&& spriteRow b cx != 0#64))

/-- A whole sprite on a framebuffer: the blended framebuffer and the collision flag (43_display.md R195). -/
def drawSprite (f : Framebuffer) (cx cy : Byte) (rows : List Byte) : Framebuffer × Bool :=
  drawRows cx cy 0 rows (f, false)

end Sys2Proof.Machine
end

