-- ==== Sys2Proof/Machine/Alu.lean ====
section
/-! DEFINITION. Register loads and arithmetic (41_alu.md). In 8xy4-8xyE the flag is written first and the result second, and a
read after the flag write sees the new VF (41_alu.md R141, decision D11). -/

namespace Sys2Proof.Machine

/-- `V[x] <- b; pc <- pc + 2`, the shape of every form here that writes one register. -/
def writeReg (x : Nibble) (b : Byte) (s : State) : Result := complete false (s.setV x b).advance

/-- 6xkk LD (41_alu.md R142): `V[x] <- kk`. -/
def execLdImm (x : Nibble) (kk : Byte) (s : State) : Result := writeReg x kk s

/-- 7xkk ADD (41_alu.md R143): `V[x] <- (V[x] + kk) mod 256`, VF not written. -/
def execAddImm (x : Nibble) (kk : Byte) (s : State) : Result := writeReg x (s.getV x + kk) s

/-- 8xy0 LD (41_alu.md R144): `V[x] <- V[y]`. -/
def execLdReg (x y : Nibble) (s : State) : Result := writeReg x (s.getV y) s

/-- 8xy1 OR (41_alu.md R145): `V[x] <- V[x] | V[y]`, VF not written (decision D12). -/
def execOrReg (x y : Nibble) (s : State) : Result := writeReg x (s.getV x ||| s.getV y) s

/-- 8xy2 AND (41_alu.md R146): `V[x] <- V[x] & V[y]`, VF not written (decision D12). -/
def execAndReg (x y : Nibble) (s : State) : Result := writeReg x (s.getV x &&& s.getV y) s

/-- 8xy3 XOR (41_alu.md R147): `V[x] <- V[x] ^ V[y]`, VF not written (decision D12). -/
def execXorReg (x y : Nibble) (s : State) : Result := writeReg x (s.getV x ^^^ s.getV y) s

/-- 8xy4 ADD (41_alu.md R148): the sum is computed before the carry is written to VF. -/
def execAddReg (x y : Nibble) (s : State) : Result :=
  writeReg x (s.getV x + s.getV y) (s.setV vf (flagByte (carryFlag (s.getV x) (s.getV y))))

/-- 8xy5 SUB (41_alu.md R149): VF <- V[x] > V[y], then `V[x] <- V[x] - V[y]` read after the VF write. -/
def execSub (x y : Nibble) (s : State) : Result :=
  let t := s.setV vf (flagByte (notBorrowFlag (s.getV x) (s.getV y)))
  writeReg x (t.getV x - t.getV y) t

/-- 8xy6 SHR (41_alu.md R150): VF <- bit 0 of V[x], then `V[x] <- V[x] >> 1` read after the VF write; `y` is not read. -/
def execShr (x : Nibble) (s : State) : Result :=
  let t := s.setV vf (flagByte (shrFlag (s.getV x)))
  writeReg x (t.getV x >>> 1) t

/-- 8xy7 SUBN (41_alu.md R151): VF <- V[y] > V[x], then `V[x] <- V[y] - V[x]` read after the VF write. -/
def execSubn (x y : Nibble) (s : State) : Result :=
  let t := s.setV vf (flagByte (notBorrowFlag (s.getV y) (s.getV x)))
  writeReg x (t.getV y - t.getV x) t

/-- 8xyE SHL (41_alu.md R152): VF <- bit 7 of V[x], then `V[x] <- (V[x] << 1)[7:0]` read after the VF write; `y` is not read. -/
def execShl (x : Nibble) (s : State) : Result :=
  let t := s.setV vf (flagByte (shlFlag (s.getV x)))
  writeReg x (t.getV x <<< 1) t

/-- Cxkk RND (41_alu.md R153): `V[x] <- draw(rnd) & kk`. The byte is a free value (log 3). -/
def execRnd (x : Nibble) (kk : Byte) (s : State) : Result :=
  writeReg x (Config.rnd s.draws &&& kk) s.takeDraw

end Sys2Proof.Machine
end

