-- ==== Sys2Proof/Machine/Display.lean ====
section
/-! DEFINITION. The display instructions (43_display.md); both leave DISP_CHANGED 1 (30_encoding.md R104). -/

namespace Sys2Proof.Machine

/-- 00E0 CLS (43_display.md R194): every pixel 0. -/
def execCls (s : State) : Result := complete true (s.setFb blankFb).advance

/-- Dxyn DRW (43_display.md R195): XOR the n-row sprite at I onto FB at (V[x], V[y]), both read before VF is written, and
`V[0xF] <- collide`; Halt(AddressOutOfRange) when a sprite row lies above 0xFFF. With n = 0 no row is read (decision D13). -/
def execDrw (x y n : Nibble) (s : State) : Result :=
  match s.readBlock (s.effAddr 0) n.toNat with
  | none => haltAt (.drw x y n) .addressOutOfRange s
  | some rows =>
    complete true
      ((s.setFb (drawSprite s.fb (s.getV x) (s.getV y) rows).1).setV vf
        (flagByte (drawSprite s.fb (s.getV x) (s.getV y) rows).2)).advance

end Sys2Proof.Machine
end

