-- ==== Sys2Proof/Machine/Flow.lean ====
section
/-! DEFINITION. Control transfer and skips (40_flow.md). Each meaning is the execute part of its rule followed by the end of a
completed instruction (30_encoding.md R104, R108). -/

namespace Sys2Proof.Machine

/-- 00EE RET (40_flow.md R121): `if SP == 0: raise Halt(StackUnderflow); SP <- SP - 1; pc <- STACK[SP]`. -/
def execRet (x : Nibble) (s : State) : Result :=
  match s.pop with
  | none => haltAt (.ret x) .stackUnderflow s
  | some (target, s') => complete false (s'.jump target)

/-- 1nnn JP (40_flow.md R122): `pc <- zext_16(nnn)`. -/
def execJp (nnn : Addr) (s : State) : Result := complete false (s.jump (zextAddr nnn))

/-- 2nnn CALL (40_flow.md R123): `if SP == 16: raise Halt(StackOverflow)`, else push pc + 2 and `pc <- zext_16(nnn)`. -/
def execCall (nnn : Addr) (s : State) : Result :=
  match s.push (s.pc + 2#16) with
  | none => haltAt (.call nnn) .stackOverflow s
  | some s' => complete false (s'.jump (zextAddr nnn))

/-- 3xkk SE (40_flow.md R124): skip if `V[x] == kk`. -/
def execSeImm (x : Nibble) (kk : Byte) (s : State) : Result := complete false (s.skipIf (s.getV x == kk))

/-- 4xkk SNE (40_flow.md R125): skip if `V[x] != kk`. -/
def execSneImm (x : Nibble) (kk : Byte) (s : State) : Result := complete false (s.skipIf (s.getV x != kk))

/-- 5xyn SE (40_flow.md R126): skip if `V[x] == V[y]`, whatever `n` (decision D10). -/
def execSeReg (x y : Nibble) (s : State) : Result := complete false (s.skipIf (s.getV x == s.getV y))

/-- 9xyn SNE (40_flow.md R127): skip if `V[x] != V[y]`, whatever `n` (decision D10). -/
def execSneReg (x y : Nibble) (s : State) : Result := complete false (s.skipIf (s.getV x != s.getV y))

/-- Bnnn JP V0 (40_flow.md R128): `pc <- zext_16(nnn) + zext_16(V[0])`, not masked to 12 bits. -/
def execJpV0 (nnn : Addr) (s : State) : Result :=
  complete false (s.jump (zextAddr nnn + zextByte (s.getV 0x0#4)))

end Sys2Proof.Machine
end

