-- ==== Sys2Proof/Machine/Index.lean ====
section
/-! DEFINITION. The index register and memory transfers (42_index_memory.md). Every access is checked before the first write, so
a halting instruction writes nothing (42_index_memory.md R170). -/

namespace Sys2Proof.Machine

/-- Annn LD I (42_index_memory.md R171): `I <- zext_16(nnn)`. -/
def execLdI (nnn : Addr) (s : State) : Result := complete false (s.setI (zextAddr nnn)).advance

/-- Fx1E ADD I (42_index_memory.md R172): I takes the 16-bit sum, VF whether the exact sum exceeds FX1E_VF_THRESHOLD. -/
def execAddIVx (x : Nibble) (s : State) : Result :=
  complete false
    ((s.setI (s.i + zextByte (s.getV x))).setV vf
      (flagByte (indexFlag s.params.fx1eThreshold s.i (s.getV x)))).advance

/-- Fx29 LD F (42_index_memory.md R173): `I <- FONT_BASE + 5 * (V[x] & 0x0F)`. -/
def execLdFVx (x : Nibble) (s : State) : Result := complete false (s.setI (s.glyphAddr (s.getV x))).advance

/-- Fx33 LD B (42_index_memory.md R174): the decimal digits of V[x] at I, I+1, I+2, or Halt(AddressOutOfRange). -/
def execLdBVx (x : Nibble) (s : State) : Result :=
  match s.writeBlock (s.effAddr 0) (bcdDigits (s.getV x)) with
  | none => haltAt (.ldBVx x) .addressOutOfRange s
  | some s' => complete false s'.advance

/-- Fx55 LD [I], Vx (42_index_memory.md R175): V[0]..V[x] at I..I+x, or Halt(AddressOutOfRange). -/
def execLdMemVx (x : Nibble) (s : State) : Result :=
  match s.writeBlock (s.effAddr 0) (s.regsUpTo x) with
  | none => haltAt (.ldMemVx x) .addressOutOfRange s
  | some s' => complete false (s'.stepIndex x).advance

/-- Fx65 LD Vx, [I] (42_index_memory.md R176): V[0]..V[x] from I..I+x, or Halt(AddressOutOfRange). -/
def execLdVxMem (x : Nibble) (s : State) : Result :=
  match s.readBlock (s.effAddr 0) (x.toNat + 1) with
  | none => haltAt (.ldVxMem x) .addressOutOfRange s
  | some bytes => complete false ((s.loadRegs bytes).stepIndex x).advance

end Sys2Proof.Machine
end

