-- ==== Sys2Proof/Machine/KeysTimers.lean ====
section
/-! DEFINITION. The key and timer instructions (44_keys_timers.md). -/

namespace Sys2Proof.Machine

/-- Ex9E SKP (44_keys_timers.md R211): skip if KEYS[V[x]] is pressed; Halt(KeyIndexOutOfRange) when V[x] > 0x0F (decision D19). -/
def execSkp (x : Nibble) (s : State) : Result :=
  match s.keyAt (s.getV x) with
  | none => haltAt (.skp x) .keyIndexOutOfRange s
  | some pressed => complete false (s.skipIf pressed)

/-- ExA1 SKNP (44_keys_timers.md R212): skip if KEYS[V[x]] is not pressed; Halt(KeyIndexOutOfRange) when V[x] > 0x0F. -/
def execSknp (x : Nibble) (s : State) : Result :=
  match s.keyAt (s.getV x) with
  | none => haltAt (.sknp x) .keyIndexOutOfRange s
  | some pressed => complete false (s.skipIf (!pressed))

/-- Fx07 LD Vx, DT (44_keys_timers.md R213): `V[x] <- DT`, before the tick. -/
def execLdVxDt (x : Nibble) (s : State) : Result := complete false (s.setV x s.dt).advance

/-- Fx0A LD Vx, K (44_keys_timers.md R214): hold while no key is pressed; else V[x] takes the index of a pressed key, a free
choice when several are pressed (decision D18; log 4). -/
def execLdVxK (x : Nibble) (s : State) : Result :=
  match choosePressed s.pressedKeys (Config.waitKeyChoice s.draws) with
  | none => hold s
  | some k => complete false ((s.takeDraw.setV x (keyByte k)).advance)

/-- Fx15 LD DT, Vx (44_keys_timers.md R215): `DT <- V[x]`, then ticked in the same step. -/
def execLdDtVx (x : Nibble) (s : State) : Result := complete false (s.setDt (s.getV x)).advance

/-- Fx18 LD ST, Vx (44_keys_timers.md R216): `ST <- V[x]`, then ticked in the same step. -/
def execLdStVx (x : Nibble) (s : State) : Result := complete false (s.setSt (s.getV x)).advance

end Sys2Proof.Machine
end

