-- ==== Sys2Proof/Machine/Step.lean ====
section
/-! DEFINITION. One poll of `step()` (30_encoding.md R104): fetch, decode, execute. -/

namespace Sys2Proof.Machine

/-- One poll of `step()` (30_encoding.md R104, R105; 60_exceptions.md R235, R253). A halted Machine has no step. -/
def step (s : State) : Host.Outcome State Fault Refusal :=
  match s.status with
  | .halted _ => .refused .steppedWhileHalted
  | .running =>
    match s.fetch16 with
    | none => halt .addressOutOfRange none s
    | some w =>
      match decodeOpcode w with
      | none => halt .unimplementedInstruction (some w) s
      | some i => exec i s

/-- `s` with the instruction of the table word `w` stored where the next fetch reads it, at PC and PC + 1; where the fetch reads
nothing (PC > 0xFFE), `s` itself (log 11). -/
def State.withFetchWord (s : State) (nbits w : Nat) : State :=
  if inBounds s.pc.toNat 2 then s.putBytes s.pc.toNat (tableBytes nbits w) else s

end Sys2Proof.Machine
end

