-- ==== Sys2Proof/Machine/HostInterface.lean ====
section
/-! DEFINITION. What the host may do to the machine (60_exceptions.md R248): construct, load once, write KEYS, step, read the
outputs; and the kind of a poll's outcome (30_encoding.md R104). -/

namespace Sys2Proof.Machine

/-! ### Load and KEYS (70_reset_and_hazards.md R274, R275; 60_exceptions.md R247) -/

/-- `load(bytes)`: the image at 0x200, or LoadError with nothing changed when it is longer than 3584 bytes
(70_reset_and_hazards.md R274, R275). -/
def State.load (s : State) (image : List Byte) : Result :=
  if imageFits image then .next (s.putBytes Config.progStart image) else .fault .loadError

/-- The host's write of all 16 keys (60_exceptions.md R247, decision D26). -/
def State.writeKeys (s : State) (ks : Vector Bool 16) : State := { s with keys := ks }

/-! ### The kind of a poll (30_encoding.md R104, 60_exceptions.md R253) -/

/-- The three outcomes of a poll of a running Machine. -/
inductive PollKind where
  | next
  | hold
  | halt
  deriving DecidableEq, Repr

/-- Whether the machine stands at an Fx0A with no key pressed, the only hold (60_exceptions.md R251, R253). -/
def State.atKeyWait (s : State) : Bool :=
  match s.fetch16 with
  | none => false
  | some w =>
    match decodeOpcode w with
    | some (.ldVxK _) => s.pressedKeys.isEmpty
    | _ => false

/-- Which outcome a poll of `s` that led to `t` has. -/
def State.kindOf (s t : State) : PollKind :=
  match t.status with
  | .halted _ => .halt
  | .running => if s.atKeyWait then .hold else .next

/-- Which outcome a poll has; none where there is no poll (30_encoding.md R105). -/
def State.pollKind (s : State) : Option PollKind :=
  match step s with
  | .next t => some (s.kindOf t)
  | .fault _ => none
  | .refused _ => none

/-! ### Outputs (30_encoding.md R109) -/

/-- The display's view, FBWORD (10_state.md R43, 60_exceptions.md R246). -/
def State.fbWord (s : State) (r : Fin 32) : RowWord := s.fb[r]

/-- The call the speaker may be issued after a completed step: start (true) or stop tone (60_exceptions.md R245, decision D32). -/
def State.tone (s : State) : Bool := s.beep

/-! ### The lifecycle (60_exceptions.md R248, 70_reset_and_hazards.md R277; log 13) -/

/-- How far the host's use of a Machine has come: `load` not yet called, called (with either result), or stepped. -/
inductive Phase where
  | constructed
  | loadCalled
  | started
  deriving DecidableEq, Repr

/-- What the core gives back to the host (60_exceptions.md R248). -/
inductive Reply where
  | nothing
  | success
  | loadError
  | polled (k : PollKind)
  deriving DecidableEq, Repr

/-- A Machine in the hands of its host, with what it gave back last. -/
structure Session where
  phase : Phase
  machine : State
  reply : Reply
  deriving DecidableEq, Repr

/-- The host's writing interactions, in the order of the table of 60_exceptions.md R248. -/
inductive HostAction where
  | load (image : List Byte)
  | writeKeys (ks : Vector Bool 16)
  | step
  deriving Repr

/-- Construct a Machine (60_exceptions.md R248). The legal parameters are those of 00_scope.md R10 (`Params.wellFormed`). What
construction does with an illegal FONT_BASE, above 0x1B0, the spec leaves open: here it is not checked, and the Machine has its
font there. DESIGN CHOICE (log 26), unsafe for a claim about such a Machine. -/
def Session.construct (p : Params) : Session := ⟨.constructed, State.construct p, .nothing⟩

/-- One interaction. `load` has a meaning only once and before the first step, and a LoadError is one result of that one call: it
changes no state of the Machine (70_reset_and_hazards.md R275, R276, decision D30). KEYS are written before a step or a poll, so
not once the Machine has halted; `step()` only while it runs (60_exceptions.md R248). All else is refused. -/
def Session.act (σ : Session) : HostAction → Host.Outcome Session Fault Refusal
  | .load image =>
    match σ.phase with
    | .constructed =>
      match σ.machine.load image with
      | .next m => .next ⟨.loadCalled, m, .success⟩
      | .fault .loadError => .next ⟨.loadCalled, σ.machine, .loadError⟩
      | .refused r => .refused r
    | .loadCalled => .refused .loadOutsideLifecycle
    | .started => .refused .loadOutsideLifecycle
  | .writeKeys ks =>
    match σ.machine.status with
    | .running => .next ⟨σ.phase, σ.machine.writeKeys ks, .nothing⟩
    | .halted _ => .refused .keysOutsideLifecycle
  | .step =>
    match step σ.machine with
    | .next m => .next ⟨.started, m, .polled (σ.machine.kindOf m)⟩
    | .fault f => .fault f
    | .refused r => .refused r

end Sys2Proof.Machine
end

