-- ==== Sys2Proof/Safety.lean ====
section
/-! DEFINITION. The terms claims are stated in: which parts of the state an instruction leaves alone, when it completes, holds or
is stopped, and the invariant of the machine. -/

namespace Sys2Proof.Safety

open Sys2Proof.Machine

/-! ### Frames -/

/-- The parts of the state that only named instructions write. What is not a part (PC, DT, ST, DISP_CHANGED, BEEP) every
completed instruction may write (30_encoding.md R104), and `Ended` and each claim's own clauses say how. -/
inductive Part where
  | reg (r : Nibble)
  | index
  | byte (a : Nat)
  | sp
  | stackEntry (j : Fin 16)
  | framebuffer
  | keys
  | params
  | status
  | draws

/-- The part holds the same in both states. Memory is compared through the machine's own read of one byte. -/
def Part.same : Part → State → State → Prop
  | .reg r, s, t => t.getV r = s.getV r
  | .index, s, t => t.i = s.i
  | .byte a, s, t => t.memRead a = s.memRead a
  | .sp, s, t => t.sp = s.sp
  | .stackEntry j, s, t => t.stack[j] = s.stack[j]
  | .framebuffer, s, t => t.fb = s.fb
  | .keys, s, t => t.keys = s.keys
  | .params, s, t => t.params = s.params
  | .status, s, t => t.status = s.status
  | .draws, s, t => t.draws = s.draws

/-- Every part outside `touched` is unchanged. -/
def Keeps (touched : Part → Prop) (s t : State) : Prop := ∀ p, ¬ touched p → p.same s t

/-- Nothing is touched. -/
def nothing : Part → Prop := fun _ => False

/-- The bytes of the `n` addresses from `a` on. -/
def bytesFrom (a n : Nat) : Part → Prop := fun p => ∃ b, p = .byte b ∧ a ≤ b ∧ b < a + n

/-! ### How a poll ends (30_encoding.md R104) -/

/-- What the end of a completed instruction leaves, from the timers' values just before the tick (60_exceptions.md R242, R243;
10_state.md R44). -/
structure Ended (drew : Bool) (dt st : Byte) (t : State) : Prop where
  dispChanged : t.dispChanged = drew
  dt : t.dt.toNat = dt.toNat - 1
  st : t.st.toNat = st.toNat - 1
  beep : t.beep = decide (0 < t.st.toNat)

/-- A key wait with no key pressed, the only hold (60_exceptions.md R253). -/
def Waiting (i : Instr) (s : State) : Prop := (∃ x, i = .ldVxK x) ∧ ∀ k : Fin 16, s.keys[k] = false

/-- The instruction completes: the outcome Next of 30_encoding.md R104, neither a hold nor a halt. -/
structure Completes (i : Instr) (s t : State) : Prop where
  running : s.status = .running
  answer : exec i s = .next t
  noHalt : t.status = .running
  noHold : ¬ Waiting i s

/-- The state a halt leaves (60_exceptions.md R233): STATUS written, all else as before. -/
def haltedBy (r : HaltReason) (opcode : Option Word) (s : State) : State :=
  { s with status := .halted ⟨r, opcode, s.pc⟩ }

/-- `n` completed steps, none of which executes Fx15, with the host writing KEYS between them as it likes (44_keys_timers.md R217,
60_exceptions.md R248). A hold changes nothing, so it needs no case. -/
inductive QuietSteps : Nat → State → State → Prop where
  | zero (s : State) : QuietSteps 0 s s
  | keys {n : Nat} {s t : State} (ks : Vector Bool 16) : QuietSteps n s t → QuietSteps n s (t.writeKeys ks)
  | succ {n : Nat} {s t u : State} {w : Word} {i : Instr} :
      QuietSteps n s t → t.fetch16 = some w → decodeOpcode w = some i → (∀ x, i ≠ .ldDtVx x) → Completes i t u →
      QuietSteps (n + 1) s u

/-! ### Sprites (43_display.md R191-R193) -/

/-- Some 1 bit of the sprite `rows` drawn at (cx, cy) lands on the pixel at row r, column c. -/
def Covers (cx cy : Byte) (rows : List Byte) (r : Fin 32) (c : Fin 64) : Prop :=
  ∃ (k : Nat) (b : Byte) (j : Nat), rows[k]? = some b ∧ j < 8 ∧ b.getLsbD (7 - j) = true ∧
    r.val = (cy.toNat + k) % 32 ∧ c.val = (cx.toNat + j) % 64

/-- The pixel FB[r][c] is lit. -/
def Lit (s : State) (r : Fin 32) (c : Fin 64) : Prop := Framebuffer.pixel s.fb r c = true

/-- MEM holds the bytes `bs` from address `a` on. -/
def Holds (s : State) (a : Nat) (bs : List Byte) : Prop := ∀ (k : Nat) (b : Byte), bs[k]? = some b → s.memRead (a + k) = some b

/-! ### The invariant -/

/-- What every state of a run satisfies: legal parameters, canonical memory, BEEP the sign of ST (60_exceptions.md R243), and, when
halted, a record that names PC and the opcode there, absent exactly when the fetch at PC fails (60_exceptions.md R232, R233). -/
structure Inv (s : State) : Prop where
  params : s.params.wellFormed = true
  mem : Memory.wf s.params s.mem
  beep : s.beep = decide (0 < s.st.toNat)
  record : ∀ rec, s.status = .halted rec → rec.pc = s.pc ∧ rec.opcode = s.fetch16

end Sys2Proof.Safety
end

