-- ==== Sys2Proof/Certificates/Slice0/Obligations.lean ====
section
/-! DEFINITION. The statements for the provers, each from the spec's numbered rules. "log n" is notes/assumptions/n.md, "Dn" a
decision the spec marks as its own (92_eei_decisions.md). -/

open Sys2Proof Sys2Proof.Machine Sys2Proof.Safety

/-! ### Encoding -/

/-- 30_encoding.md R92, R97, R98: words written out from the table, with a don't-care nibble (D10) and two unimplemented opcodes
among them. -/
def Obligations.SampleWordsDecode : Prop :=
  decodeTableWord 16 0x00E0 = some (.cls 0x0) ∧ decodeTableWord 16 0x01EE = some (.ret 0x1) ∧
  decodeTableWord 16 0xBFFF = some (.jpV0 0xFFF) ∧ decodeTableWord 16 0x5121 = some (.seReg 0x1 0x2 0x1) ∧
  decodeTableWord 16 0x6A2F = some (.ldImm 0xA 0x2F) ∧ decodeTableWord 16 0x8F14 = some (.addReg 0xF 0x1) ∧
  decodeTableWord 16 0x8566 = some (.shr 0x5 0x6) ∧ decodeTableWord 16 0xA2F0 = some (.ldI 0x2F0) ∧
  decodeTableWord 16 0xD015 = some (.drw 0x0 0x1 0x5) ∧ decodeTableWord 16 0xE1A1 = some (.sknp 0x1) ∧
  decodeTableWord 16 0xF255 = some (.ldMemVx 0x2) ∧ decodeTableWord 16 0x0123 = none ∧
  decodeTableWord 16 0x8008 = none

/-- 30_encoding.md R90-R97, 20_memory.md R66: the two bytes of every instruction's encoding, high byte first, decode to it. -/
def Obligations.DecodeOfEncode : Prop :=
  ∀ (i : Instr) (rest : List Byte),
    decode ((encode i).extractLsb' 8 8 :: (encode i).extractLsb' 0 8 :: rest) = .ok (i, rest)

/-- No bit of an opcode is dropped: every opcode that decodes is the encoding of what it decodes to, so that an error record
names the fetched opcode (60_exceptions.md R232; log 10, DEDUCED). -/
def Obligations.EncodeOfDecode : Prop :=
  ∀ (w : Word) (i : Instr), decodeOpcode w = some i → encode i = w

/-- 30_encoding.md R97, R98, R101: an opcode decodes to the form whose row selects it, and to nothing exactly when no row does.
That the masks of CLS, RET, SE_REG and SNE_REG leave a nibble open is decision D10 (log 16, DESIGN CHOICE). -/
def Obligations.DecodeFollowsTable : Prop :=
  ∀ w : Word,
    (∀ i, decodeOpcode w = some i → (rowOf i).selects w = true) ∧
    (decodeOpcode w = none ↔ ∀ r ∈ opcodeTable, r.selects w = false)

/-- 30_encoding.md R97: the table has 34 rows, and no two rows match the same opcode (the open nibbles of four masks are D10, log 16,
DESIGN CHOICE). -/
def Obligations.TableRowsAreDisjoint : Prop :=
  opcodeTable.length = 34 ∧
  ∀ (w : Word) (r r' : OpcodeRow), r ∈ opcodeTable → r' ∈ opcodeTable →
    r.selects w = true → r'.selects w = true → r = r'

/-! ### The step -/

/-- 30_encoding.md R104, R107: when the two bytes at PC decode to an instruction, the step of a running Machine is `exec` of it.
Nothing stands around `exec`: the tick and the outputs are part of it (log 24, DESIGN CHOICE). -/
def Obligations.StepRunsDecodedInstruction : Prop :=
  ∀ (s : State) (hi lo : Byte) (i : Instr), s.status = .running →
    s.memRead s.pc.toNat = some hi → s.memRead (s.pc.toNat + 1) = some lo →
    decode [hi, lo] = .ok (i, []) → i.wellFormed = true → step s = exec i s

/-- 20_memory.md R66, 60_exceptions.md R238: a fetch at PC > 0xFFE halts with AddressOutOfRange and no opcode (D6). -/
def Obligations.FetchBeyondMemoryHalts : Prop :=
  ∀ s : State, s.status = .running → 0xFFE < s.pc.toNat →
    step s = .next (haltedBy .addressOutOfRange none s)

/-- 30_encoding.md R98: an opcode no row of the table selects halts the Machine, with the opcode and PC recorded and nothing else
changed (D20). -/
def Obligations.UnimplementedOpcodeHalts : Prop :=
  ∀ (s : State) (hi lo : Byte), s.status = .running →
    s.memRead s.pc.toNat = some hi → s.memRead (s.pc.toNat + 1) = some lo →
    (∀ r ∈ opcodeTable, r.selects (opcodeOfBytes hi lo) = false) →
    step s = .next (haltedBy .unimplementedInstruction (some (opcodeOfBytes hi lo)) s)

/-- 30_encoding.md R104, R105, 60_exceptions.md R253: a running Machine always has a next state, a halted one never has a step
(D27, log 6), and no step ends in a fault. -/
def Obligations.StepAnswers : Prop :=
  ∀ s : State,
    (s.status = .running → ∃ t, step s = .next t) ∧
    (∀ rec, s.status = .halted rec → step s = .refused .steppedWhileHalted) ∧
    (∀ f, step s ≠ .fault f)

/-- 60_exceptions.md R232, R233: a step that halts changes STATUS and nothing else, and records PC and the opcode there, which is
absent exactly when the fetch failed (D20). -/
def Obligations.HaltsArePrecise : Prop :=
  ∀ (s t : State) (rec : ErrorRecord), s.status = .running → step s = .next t → t.status = .halted rec →
    t = haltedBy rec.reason rec.opcode s ∧ rec.pc = s.pc ∧ rec.opcode = s.fetch16

/-- 60_exceptions.md R253, R251: a poll holds only at an Fx0A with no key pressed, and then changes nothing (D18, log 7). -/
def Obligations.HoldOnlyAtKeyWait : Prop :=
  ∀ s : State, s.pollKind = some .hold →
    step s = .next s ∧ ∃ w x, s.fetch16 = some w ∧ decodeOpcode w = some (.ldVxK x) ∧ ∀ k : Fin 16, s.keys[k] = false

/-- 30_encoding.md R104, 60_exceptions.md R242: every completed instruction writes DISP_CHANGED (D21), ticks both timers, Fx15 and
Fx18 after their own write, and recomputes BEEP. That Fx15 and Fx18 write V[x] to DT and to ST is the spec's general knowledge (K6,
K7; log 22, PRESUMED). -/
def Obligations.EveryCompletionTicks : Prop :=
  ∀ (i : Instr) (s t : State), Completes i s t →
    (∀ x, i = .ldDtVx x → Ended false (s.getV x) s.st t) ∧
    (∀ x, i = .ldStVx x → Ended false s.dt (s.getV x) t) ∧
    (((∃ x, i = .cls x) ∨ ∃ x y n, i = .drw x y n) → Ended true s.dt s.st t) ∧
    ((∀ x, i ≠ .ldDtVx x) → (∀ x, i ≠ .ldStVx x) → (∀ x, i ≠ .cls x) → (∀ x y n, i ≠ .drw x y n) →
      Ended false s.dt s.st t)

/-- 60_exceptions.md R243: after the tick of every completed step (a Next by `pollKind`, log 7, DEDUCED), BEEP is whether ST > 0. -/
def Obligations.BeepFollowsSoundTimer : Prop :=
  ∀ s t : State, s.pollKind = some .next → step s = .next t → t.beep = decide (0 < t.st.toNat)

/-! ### Invariants and whole-machine rules -/

/-- Every step keeps the invariant: legal parameters (00_scope.md R10), canonical memory (log 9), BEEP the sign of ST (R243), and
a true error record (R233). -/
def Obligations.StepKeepsInv : Prop :=
  ∀ s t : State, Inv s → step s = .next t → Inv t

/-- The invariant holds right after construction with legal parameters, and at State.reset (log 1, DESIGN CHOICE). -/
def Obligations.ConstructionHasInv : Prop :=
  (∀ p : Params, p.wellFormed = true → Inv (State.construct p)) ∧ Inv State.reset

/-- 10_state.md R41, R47: no step writes KEYS or a parameter. -/
def Obligations.StepNeverWritesKeysOrParams : Prop :=
  ∀ s t : State, step s = .next t → t.keys = s.keys ∧ t.params = s.params

/-- 10_state.md R42, 43_display.md R190: only CLS and DRW write the framebuffer. -/
def Obligations.OnlyDisplayWritesFramebuffer : Prop :=
  ∀ (i : Instr) (s t : State), exec i s = .next t → t.fb ≠ s.fb →
    (∃ x, i = .cls x) ∨ ∃ x y n, i = .drw x y n

/-- 20_memory.md R62: only Fx33 and Fx55 write MEM, and only at I..I+2 and I..I+x. -/
def Obligations.OnlyStoresWriteMemory : Prop :=
  ∀ (i : Instr) (s t : State) (a : Nat), exec i s = .next t → t.memRead a ≠ s.memRead a →
    ((∃ x, i = .ldBVx x) ∧ s.i.toNat ≤ a ∧ a ≤ s.i.toNat + 2) ∨
    (∃ x, i = .ldMemVx x ∧ s.i.toNat ≤ a ∧ a ≤ s.i.toNat + x.toNat)

/-- 10_state.md R38: only CALL and RET touch SP, and only CALL a stack entry. -/
def Obligations.OnlyCallAndRetTouchStack : Prop :=
  ∀ (i : Instr) (s t : State), exec i s = .next t →
    (t.sp ≠ s.sp → (∃ nnn, i = .call nnn) ∨ ∃ x, i = .ret x) ∧
    (t.stack ≠ s.stack → ∃ nnn, i = .call nnn)

/-- 10_state.md R48: an instruction that changes VF is one of the seven flag writers or names VF as its destination. That OR, AND and
XOR are no flag writers is decision D12 (log 17, DESIGN CHOICE). -/
def Obligations.OnlyListedInstructionsWriteVf : Prop :=
  ∀ (i : Instr) (s t : State), exec i s = .next t → t.getV vf ≠ s.getV vf →
    (∃ x y, i = .addReg x y ∨ i = .sub x y ∨ i = .shr x y ∨ i = .subn x y ∨ i = .shl x y) ∨
    (∃ x y n, i = .drw x y n) ∨ (∃ x, i = .addIVx x) ∨
    (∃ kk, i = .ldImm vf kk ∨ i = .addImm vf kk ∨ i = .rnd vf kk) ∨
    (∃ y, i = .ldReg vf y ∨ i = .orReg vf y ∨ i = .andReg vf y ∨ i = .xorReg vf y) ∨
    i = .ldVxDt vf ∨ i = .ldVxK vf ∨ i = .ldVxMem vf

/-- 10_state.md R37: only Annn, Fx1E, Fx29 write I, and Fx55 and Fx65 when LOAD_STORE_INCREMENTS_I is set (D17). -/
def Obligations.OnlyListedInstructionsWriteIndex : Prop :=
  ∀ (i : Instr) (s t : State), exec i s = .next t → t.i ≠ s.i →
    (∃ nnn, i = .ldI nnn) ∨ (∃ x, i = .addIVx x ∨ i = .ldFVx x) ∨
    (s.params.loadStoreIncrementsI = true ∧ ∃ x, i = .ldMemVx x ∨ i = .ldVxMem x)

/-- 10_state.md R35: a completed instruction that is no jump, call, return or skip leaves PC = pc + 2. -/
def Obligations.PcAdvancesByTwo : Prop :=
  ∀ (i : Instr) (s t : State), Completes i s t →
    (∀ x, i ≠ .ret x) → (∀ nnn, i ≠ .jp nnn ∧ i ≠ .call nnn ∧ i ≠ .jpV0 nnn) →
    (∀ x kk, i ≠ .seImm x kk ∧ i ≠ .sneImm x kk) → (∀ x y n, i ≠ .seReg x y n ∧ i ≠ .sneReg x y n) →
    (∀ x, i ≠ .skp x ∧ i ≠ .sknp x) → t.pc = s.pc + 2#16

/-! ### Construction and load -/

/-- 10_state.md R51, 70_reset_and_hazards.md R271: every register, timer, key, pixel and output after construction. The values are
the spec's decisions D1 and D2 (log 8); for an illegal FONT_BASE that a Machine is constructed at all is the model's choice (log 26,
DESIGN CHOICE). -/
def Obligations.ConstructionState : Prop :=
  ∀ p : Params,
    (State.construct p).params = p ∧ (∀ x, (State.construct p).getV x = 0x00#8) ∧ (State.construct p).i = 0x0000#16 ∧
    (State.construct p).pc = 0x0200#16 ∧ (State.construct p).sp.val = 0 ∧
    (∀ j : Fin 16, (State.construct p).stack[j] = 0x0000#16) ∧
    (State.construct p).dt = 0x00#8 ∧ (State.construct p).st = 0x00#8 ∧
    (∀ k : Fin 16, (State.construct p).keys[k] = false) ∧ (∀ r c, ¬ Lit (State.construct p) r c) ∧
    (State.construct p).dispChanged = false ∧ (State.construct p).beep = false ∧
    (State.construct p).status = .running

/-- 70_reset_and_hazards.md R272, 10_state.md R51: after construction MEM holds glyph d at FONT_BASE + 5*d, 0x00 elsewhere
(D2, log 9), and no address above 0xFFF exists. -/
def Obligations.ConstructionMemory : Prop :=
  ∀ p : Params, p.wellFormed = true →
    (∀ d r, d < 16 → r < 5 → (State.construct p).memRead (p.fontBase.toNat + 5 * d + r) = p.fontGlyphs[5 * d + r]?) ∧
    (∀ a, a ≤ 0xFFF → (a < p.fontBase.toNat ∨ p.fontBase.toNat + 80 ≤ a) →
      (State.construct p).memRead a = some 0x00#8) ∧
    (∀ a, 0xFFF < a → (State.construct p).memRead a = none)

/-- 70_reset_and_hazards.md R274: an image of at most 3584 bytes is copied to 0x200.. and no other state changes; after construction
the bytes behind it stay 0x00, a value that is decision D2 (log 9, DESIGN CHOICE). -/
def Obligations.LoadPlacesImage : Prop :=
  ∀ (s : State) (image : List Byte), image.length ≤ 3584 →
    ∃ t, s.load image = .next t ∧ Holds t 0x200 image ∧ Keeps (bytesFrom 0x200 image.length) s t ∧
      t.pc = s.pc ∧ t.dt = s.dt ∧ t.st = s.st ∧ t.dispChanged = s.dispChanged ∧ t.beep = s.beep ∧
      (∀ p : Params, p.wellFormed = true → s = State.construct p →
        ∀ a, 0x200 + image.length ≤ a → a ≤ 0xFFF → t.memRead a = some 0x00#8)

/-- 70_reset_and_hazards.md R275: a longer image is LoadError; 3584 bytes are accepted; no bytes change nothing. LoadError is an
outcome of `load` with no state of its own (log 13, DESIGN CHOICE). -/
def Obligations.LoadRejectsLongImages : Prop :=
  ∀ (s : State) (image : List Byte),
    (s.load image = .fault .loadError ↔ 3584 < image.length) ∧
    (image.length = 3584 → ∃ t, s.load image = .next t) ∧ s.load [] = .next s

/-- 70_reset_and_hazards.md R276, 60_exceptions.md R248: once `load` has been called, with either result, or a step taken, no later
`load` has a meaning, whatever the host does in between: every interaction that is a `load` or a step, or that comes after one,
leaves a session in which `load` is refused (D30; log 13, DESIGN CHOICE). -/
def Obligations.LoadOnceBeforeFirstStep : Prop :=
  ∀ (σ τ : Session) (a : HostAction) (other : List Byte),
    Session.act σ a = .next τ → ((∃ image, a = .load image) ∨ a = .step ∨ σ.phase ≠ .constructed) →
    τ.phase ≠ .constructed ∧ Session.act τ (.load other) = .refused .loadOutsideLifecycle

/-- 70_reset_and_hazards.md R276, which the spec marks as derived: the first step with no load fetches 0x0000 and halts. The entry
point 0x0200 and the zeros there are decisions D1 and D2 (log 8, log 9, log 11, DESIGN CHOICE). -/
def Obligations.FirstStepWithoutLoadHalts : Prop :=
  ∀ p : Params, p.wellFormed = true →
    step (State.construct p) = .next (haltedBy .unimplementedInstruction (some 0x0000#16) (State.construct p))

/-! ### Control transfer -/

/-- 40_flow.md R122, R128: JP sets PC to nnn, JP V0 to the exact sum nnn + V[0], not masked to 12 bits (D23); nothing else is
written. -/
def Obligations.JumpsSetPc : Prop :=
  ∀ (nnn : Addr) (s : State),
    (∃ t, exec (.jp nnn) s = .next t ∧ t.pc.toNat = nnn.toNat ∧ Keeps nothing s t) ∧
    (∃ t, exec (.jpV0 nnn) s = .next t ∧ t.pc.toNat = nnn.toNat + (s.getV 0x0).toNat ∧ Keeps nothing s t)

/-- 40_flow.md R123: with SP < 16, CALL writes pc + 2 to STACK[SP], adds 1 to SP and jumps to nnn (D8). -/
def Obligations.CallPushesReturnAddress : Prop :=
  ∀ (nnn : Addr) (s : State) (room : s.sp.val < 16),
    ∃ t, exec (.call nnn) s = .next t ∧ t.stack[s.sp.val] = s.pc + 2#16 ∧ t.sp.val = s.sp.val + 1 ∧
      t.pc.toNat = nnn.toNat ∧ Keeps (fun p => p = .sp ∨ p = .stackEntry ⟨s.sp.val, room⟩) s t

/-- 40_flow.md R121: with SP > 0, RET takes 1 from SP and sets PC to the entry there, whatever the ignored nibble; the entry keeps
its value (D8, D10). -/
def Obligations.RetPopsReturnAddress : Prop :=
  ∀ (x : Nibble) (s : State) (top : Fin 16), s.sp.val = top.val + 1 →
    ∃ t, exec (.ret x) s = .next t ∧ t.sp.val = top.val ∧ t.pc = s.stack[top] ∧ Keeps (fun p => p = .sp) s t

/-- 40_flow.md R121, R123: CALL with 16 entries in use and RET with none halt and change nothing else (D7, D20). -/
def Obligations.StackLimitsHalt : Prop :=
  ∀ (nnn : Addr) (x : Nibble) (s : State),
    (s.sp.val = 16 → exec (.call nnn) s = .next (haltedBy .stackOverflow (some (encode (.call nnn))) s)) ∧
    (s.sp.val = 0 → exec (.ret x) s = .next (haltedBy .stackUnderflow (some (encode (.ret x))) s))

/-- 40_flow.md R130, which the spec marks as derived: a RET that finds SP and the pushed entry as the CALL left them returns behind
the CALL and restores SP. -/
def Obligations.CallThenRetReturns : Prop :=
  ∀ (nnn : Addr) (x : Nibble) (s : State) (room : s.sp.val < 16),
    ∃ t, exec (.call nnn) s = .next t ∧
      ∀ u : State, u.sp = t.sp → u.stack[s.sp.val] = t.stack[s.sp.val] →
        ∃ v, exec (.ret x) u = .next v ∧ v.pc = s.pc + 2#16 ∧ v.sp = s.sp

/-- 40_flow.md R124, R125: 3xkk skips iff V[x] = kk, 4xkk iff V[x] ≠ kk; neither writes anything but PC. That a taken skip is pc + 4
is decision D9 (log 21, DESIGN CHOICE). -/
def Obligations.ImmediateSkips : Prop :=
  (∀ w : Word, w &&& 0xF000#16 = 0x3000#16 → decodeOpcode w = some (.seImm (xField w) (kkField w))) ∧
  (∀ w : Word, w &&& 0xF000#16 = 0x4000#16 → decodeOpcode w = some (.sneImm (xField w) (kkField w))) ∧
  ∀ (x : Nibble) (kk : Byte) (s : State),
    (∃ t, exec (.seImm x kk) s = .next t ∧
      t.pc = (if s.getV x = kk then s.pc + 4#16 else s.pc + 2#16) ∧ Keeps nothing s t) ∧
    (∃ t, exec (.sneImm x kk) s = .next t ∧
      t.pc = (if s.getV x = kk then s.pc + 2#16 else s.pc + 4#16) ∧ Keeps nothing s t)

/-- 40_flow.md R126, R127: 5xyn skips iff V[x] = V[y], 9xyn iff they differ, whatever n (D10; log 16, DESIGN CHOICE); neither writes
anything but PC. That a taken skip is pc + 4 is decision D9 (log 21, DESIGN CHOICE). -/
def Obligations.RegisterSkips : Prop :=
  ∀ (x y n : Nibble) (s : State),
    (∃ t, exec (.seReg x y n) s = .next t ∧
      t.pc = (if s.getV x = s.getV y then s.pc + 4#16 else s.pc + 2#16) ∧ Keeps nothing s t) ∧
    (∃ t, exec (.sneReg x y n) s = .next t ∧
      t.pc = (if s.getV x = s.getV y then s.pc + 2#16 else s.pc + 4#16) ∧ Keeps nothing s t)

/-! ### Registers and arithmetic -/

/-- 41_alu.md R142, R143, R144: 6xkk loads kk, 7xkk adds it modulo 256, 8xy0 copies V[y]; only V[x] and PC are written, so VF is
not unless it is V[x]. -/
def Obligations.RegisterLoads : Prop :=
  (∀ w : Word, w &&& 0xF000#16 = 0x6000#16 → decodeOpcode w = some (.ldImm (xField w) (kkField w))) ∧
  (∀ w : Word, w &&& 0xF000#16 = 0x7000#16 → decodeOpcode w = some (.addImm (xField w) (kkField w))) ∧
  (∀ w : Word, w &&& 0xF00F#16 = 0x8000#16 → decodeOpcode w = some (.ldReg (xField w) (yField w))) ∧
  ∀ (x y : Nibble) (kk : Byte) (s : State),
    (∃ t, exec (.ldImm x kk) s = .next t ∧ t.getV x = kk ∧ t.pc = s.pc + 2#16 ∧ Keeps (fun p => p = .reg x) s t) ∧
    (∃ t, exec (.addImm x kk) s = .next t ∧ (t.getV x).toNat = ((s.getV x).toNat + kk.toNat) % 256 ∧
      t.pc = s.pc + 2#16 ∧ Keeps (fun p => p = .reg x) s t) ∧
    (∃ t, exec (.ldReg x y) s = .next t ∧ t.getV x = s.getV y ∧ t.pc = s.pc + 2#16 ∧ Keeps (fun p => p = .reg x) s t)

/-- 41_alu.md R145, R146, R147: each bit of V[x] after OR, AND, XOR; VF is not written unless it is V[x] (D12). -/
def Obligations.BitwiseOperations : Prop :=
  ∀ (x y : Nibble) (s : State),
    (∃ t, exec (.orReg x y) s = .next t ∧
      (∀ k, (t.getV x).getLsbD k = ((s.getV x).getLsbD k || (s.getV y).getLsbD k)) ∧
      t.pc = s.pc + 2#16 ∧ Keeps (fun p => p = .reg x) s t) ∧
    (∃ t, exec (.andReg x y) s = .next t ∧
      (∀ k, (t.getV x).getLsbD k = ((s.getV x).getLsbD k && (s.getV y).getLsbD k)) ∧
      t.pc = s.pc + 2#16 ∧ Keeps (fun p => p = .reg x) s t) ∧
    (∃ t, exec (.xorReg x y) s = .next t ∧
      (∀ k, (t.getV x).getLsbD k = ((s.getV x).getLsbD k != (s.getV y).getLsbD k)) ∧
      t.pc = s.pc + 2#16 ∧ Keeps (fun p => p = .reg x) s t)

/-- 41_alu.md R148: 8xy4 writes the sum modulo 256 to V[x] and the carry to VF; with x = F the sum overwrites the carry
(R141, D11). -/
def Obligations.AddSetsCarry : Prop :=
  ∀ (x y : Nibble) (s : State),
    ∃ t, exec (.addReg x y) s = .next t ∧
      (t.getV x).toNat = ((s.getV x).toNat + (s.getV y).toNat) % 256 ∧
      (x ≠ vf → t.getV vf = if 255 < (s.getV x).toNat + (s.getV y).toNat then 0x01#8 else 0x00#8) ∧
      t.pc = s.pc + 2#16 ∧ Keeps (fun p => p = .reg x ∨ p = .reg vf) s t

/-- 41_alu.md R149: 8xy5 writes VF = 1 iff V[x] > V[y], then V[x] - V[y] read after that write (R141, D11): with y = F the
subtrahend is the flag, with x = F the minuend. -/
def Obligations.SubSetsNotBorrow : Prop :=
  ∀ (x y : Nibble) (s : State) (flag : Byte), (flag = if (s.getV y).toNat < (s.getV x).toNat then 0x01#8 else 0x00#8) →
    ∃ t, exec (.sub x y) s = .next t ∧
      (x ≠ vf → y ≠ vf → t.getV x = s.getV x - s.getV y) ∧
      (x ≠ vf → y = vf → t.getV x = s.getV x - flag) ∧
      (x = vf → y ≠ vf → t.getV x = flag - s.getV y) ∧
      (x = vf → y = vf → t.getV x = 0x00#8) ∧
      (x ≠ vf → t.getV vf = flag) ∧
      t.pc = s.pc + 2#16 ∧ Keeps (fun p => p = .reg x ∨ p = .reg vf) s t

/-- 41_alu.md R151: 8xy7 writes VF = 1 iff V[y] > V[x], then V[y] - V[x] read after that write (R141, D11). -/
def Obligations.SubnSetsNotBorrow : Prop :=
  ∀ (x y : Nibble) (s : State) (flag : Byte), (flag = if (s.getV x).toNat < (s.getV y).toNat then 0x01#8 else 0x00#8) →
    ∃ t, exec (.subn x y) s = .next t ∧
      (x ≠ vf → y ≠ vf → t.getV x = s.getV y - s.getV x) ∧
      (x ≠ vf → y = vf → t.getV x = flag - s.getV x) ∧
      (x = vf → y ≠ vf → t.getV x = s.getV y - flag) ∧
      (x = vf → y = vf → t.getV x = 0x00#8) ∧
      (x ≠ vf → t.getV vf = flag) ∧
      t.pc = s.pc + 2#16 ∧ Keeps (fun p => p = .reg x ∨ p = .reg vf) s t

/-- 41_alu.md R150, R152: 8xy6 and 8xyE shift V[x] by one and put the bit shifted out in VF, whatever V[y]; with x = F the flag just
written is what is shifted (R141, D11). -/
def Obligations.ShiftsByOne : Prop :=
  ∀ (x y : Nibble) (s : State),
    (∃ t, exec (.shr x y) s = .next t ∧
      (x ≠ vf → (t.getV x).toNat = (s.getV x).toNat / 2 ∧ (t.getV vf).toNat = (s.getV x).toNat % 2) ∧
      (x = vf → t.getV vf = 0x00#8) ∧
      t.pc = s.pc + 2#16 ∧ Keeps (fun p => p = .reg x ∨ p = .reg vf) s t) ∧
    (∃ t, exec (.shl x y) s = .next t ∧
      (x ≠ vf → (t.getV x).toNat = (s.getV x).toNat * 2 % 256 ∧ (t.getV vf).toNat = (s.getV x).toNat / 128) ∧
      (x = vf → (t.getV vf).toNat = (s.getV vf).toNat / 128 * 2) ∧
      t.pc = s.pc + 2#16 ∧ Keeps (fun p => p = .reg x ∨ p = .reg vf) s t)

/-- 41_alu.md R153: Cxkk writes a byte AND kk to V[x], the byte a draw (D25); the draw and its counter are the model's (log 3,
log 5, DESIGN CHOICE), and the statement holds for every value of them. -/
def Obligations.RandomIsMasked : Prop :=
  ∀ (x : Nibble) (kk : Byte) (s : State),
    ∃ t, exec (.rnd x kk) s = .next t ∧ t.getV x = (Config.rnd s.draws &&& kk) ∧ (t.getV x) &&& ~~~kk = 0x00#8 ∧
      t.pc = s.pc + 2#16 ∧ Keeps (fun p => p = .reg x ∨ p = .draws) s t

/-! ### Index register and memory transfers -/

/-- 42_index_memory.md R171: Annn sets I to nnn and writes nothing else but PC. -/
def Obligations.LoadIndex : Prop :=
  (∀ w : Word, w &&& 0xF000#16 = 0xA000#16 → decodeOpcode w = some (.ldI (nnnField w))) ∧
  ∀ (nnn : Addr) (s : State),
    ∃ t, exec (.ldI nnn) s = .next t ∧ t.i.toNat = nnn.toNat ∧ t.pc = s.pc + 2#16 ∧ Keeps (fun p => p = .index) s t

/-- 42_index_memory.md R172: Fx1E adds V[x] to I modulo 2^16 and writes VF = 1 iff the exact sum exceeds FX1E_VF_THRESHOLD, else 0;
x = F too (D16). -/
def Obligations.AddIndexSetsFlag : Prop :=
  ∀ (x : Nibble) (s : State),
    ∃ t, exec (.addIVx x) s = .next t ∧ t.i.toNat = (s.i.toNat + (s.getV x).toNat) % 65536 ∧
      t.getV vf = (if s.params.fx1eThreshold.toNat < s.i.toNat + (s.getV x).toNat then 0x01#8 else 0x00#8) ∧
      t.pc = s.pc + 2#16 ∧ Keeps (fun p => p = .index ∨ p = .reg vf) s t

/-- 42_index_memory.md R173: Fx29 sets I to FONT_BASE + 5 * the low nibble of V[x] (D5; the meaning is from general knowledge, K4,
log 22). -/
def Obligations.GlyphAddress : Prop :=
  ∀ (x : Nibble) (s : State),
    ∃ t, exec (.ldFVx x) s = .next t ∧ t.i.toNat = s.params.fontBase.toNat + 5 * ((s.getV x).toNat % 16) ∧
      t.pc = s.pc + 2#16 ∧ Keeps (fun p => p = .index) s t

/-- 42_index_memory.md R174: with I ≤ 0xFFD, Fx33 stores the decimal digits of V[x], hundreds first, at I, I+1, I+2 and nothing
else. -/
def Obligations.BcdStoresDigits : Prop :=
  ∀ (x : Nibble) (s : State), s.effAddr 2 ≤ 0xFFF →
    ∃ t h d o, exec (.ldBVx x) s = .next t ∧ (s.getV x).toNat = 100 * h + 10 * d + o ∧ d < 10 ∧ o < 10 ∧
      t.memRead (s.effAddr 0) = some (BitVec.ofNat 8 h) ∧ t.memRead (s.effAddr 1) = some (BitVec.ofNat 8 d) ∧
      t.memRead (s.effAddr 2) = some (BitVec.ofNat 8 o) ∧
      t.pc = s.pc + 2#16 ∧ Keeps (bytesFrom (s.effAddr 0) 3) s t

/-- 42_index_memory.md R175: with I + x ≤ 0xFFF, Fx55 stores V[0]..V[x] at I..I+x and nothing else, and adds x + 1 to I iff
LOAD_STORE_INCREMENTS_I (D17). -/
def Obligations.BlockStore : Prop :=
  ∀ (x : Nibble) (s : State), s.effAddr x.toNat ≤ 0xFFF →
    ∃ t, exec (.ldMemVx x) s = .next t ∧
      (∀ j, j ≤ x.toNat → t.memRead (s.effAddr 0 + j) = some (s.getV (BitVec.ofNat 4 j))) ∧
      t.i.toNat = (if s.params.loadStoreIncrementsI then (s.i.toNat + x.toNat + 1) % 65536 else s.i.toNat) ∧
      t.pc = s.pc + 2#16 ∧ Keeps (fun p => bytesFrom (s.effAddr 0) (x.toNat + 1) p ∨ p = .index) s t

/-- 42_index_memory.md R176: with I + x ≤ 0xFFF, Fx65 loads V[0]..V[x] from I..I+x and no register above, and adds x + 1 to I iff
LOAD_STORE_INCREMENTS_I (D17). -/
def Obligations.BlockLoad : Prop :=
  ∀ (x : Nibble) (s : State), s.effAddr x.toNat ≤ 0xFFF →
    ∃ t, exec (.ldVxMem x) s = .next t ∧
      (∀ r : Nibble, r.toNat ≤ x.toNat → s.memRead (s.effAddr r.toNat) = some (t.getV r)) ∧
      t.i.toNat = (if s.params.loadStoreIncrementsI then (s.i.toNat + x.toNat + 1) % 65536 else s.i.toNat) ∧
      t.pc = s.pc + 2#16 ∧ Keeps (fun p => (∃ r, r.toNat ≤ x.toNat ∧ p = .reg r) ∨ p = .index) s t

/-- 20_memory.md R64, 42_index_memory.md R170: a transfer or a sprite that reaches above 0xFFF halts with AddressOutOfRange and
writes nothing (D6, D20). -/
def Obligations.OutOfRangeAccessHalts : Prop :=
  ∀ (x y n : Nibble) (s : State),
    (0xFFF < s.effAddr 2 → exec (.ldBVx x) s = .next (haltedBy .addressOutOfRange (some (encode (.ldBVx x))) s)) ∧
    (0xFFF < s.effAddr x.toNat →
      exec (.ldMemVx x) s = .next (haltedBy .addressOutOfRange (some (encode (.ldMemVx x))) s) ∧
      exec (.ldVxMem x) s = .next (haltedBy .addressOutOfRange (some (encode (.ldVxMem x))) s)) ∧
    (0 < n.toNat → 0xFFF < s.effAddr (n.toNat - 1) →
      exec (.drw x y n) s = .next (haltedBy .addressOutOfRange (some (encode (.drw x y n))) s))

/-- 20_memory.md R77, 70_reset_and_hazards.md R280, both marked derived in the spec: a fetch reads the same memory as data accesses
do, so any two neighbouring bytes that Fx55 stored, and the three digits that Fx33 stored, are the opcodes that a fetch at them
reads in the very next step. -/
def Obligations.StoredBytesAreFetched : Prop :=
  (∀ (t : State) (p : Word) (hi lo : Byte), t.memRead p.toNat = some hi → t.memRead (p.toNat + 1) = some lo →
    (t.jump p).fetch16 = some (opcodeOfBytes hi lo)) ∧
  (∀ (x : Nibble) (s : State), s.effAddr x.toNat ≤ 0xFFF →
    ∃ t, exec (.ldMemVx x) s = .next t ∧ ∀ j, j + 1 ≤ x.toNat →
      (t.jump (s.i + BitVec.ofNat 16 j)).fetch16
        = some (opcodeOfBytes (s.getV (BitVec.ofNat 4 j)) (s.getV (BitVec.ofNat 4 (j + 1))))) ∧
  (∀ (x : Nibble) (s : State), s.effAddr 2 ≤ 0xFFF →
    ∃ t h d o, exec (.ldBVx x) s = .next t ∧ (s.getV x).toNat = 100 * h + 10 * d + o ∧ d < 10 ∧ o < 10 ∧
      (t.jump s.i).fetch16 = some (opcodeOfBytes (BitVec.ofNat 8 h) (BitVec.ofNat 8 d)) ∧
      (t.jump (s.i + 1#16)).fetch16 = some (opcodeOfBytes (BitVec.ofNat 8 d) (BitVec.ofNat 8 o)))

/-! ### Display -/

/-- 43_display.md R194: CLS turns every pixel off, sets DISP_CHANGED and writes nothing else but PC. That the x nibble is ignored is
decision D10 (30_encoding.md R96; log 16, DESIGN CHOICE). -/
def Obligations.ClsClears : Prop :=
  (∀ w : Word, w &&& 0xF0FF#16 = 0x00E0#16 → decodeOpcode w = some (.cls (xField w))) ∧
  ∀ (x : Nibble) (s : State),
    ∃ t, exec (.cls x) s = .next t ∧ (∀ r c, ¬ Lit t r c) ∧ t.dispChanged = true ∧ t.pc = s.pc + 2#16 ∧
      Keeps (fun p => p = .framebuffer) s t

/-- 43_display.md R192, R193, R195: with the n sprite bytes in memory at I, DRW toggles exactly the pixels its 1 bits land on, each
wrapped modulo 32 and 64, and writes VF = 1 iff one of them was lit (bit order D14, wrap D15, n = 0 D13). -/
def Obligations.DrawTogglesCoveredPixels : Prop :=
  ∀ (x y n : Nibble) (s : State) (rows : List Byte), rows.length = n.toNat → Holds s (s.effAddr 0) rows →
    ∃ t, exec (.drw x y n) s = .next t ∧
      (∀ r c, Lit t r c ↔ (Lit s r c ↔ ¬ Covers (s.getV x) (s.getV y) rows r c)) ∧
      ((∃ r c, Covers (s.getV x) (s.getV y) rows r c ∧ Lit s r c) → t.getV vf = 0x01#8) ∧
      ((∀ r c, Covers (s.getV x) (s.getV y) rows r c → ¬ Lit s r c) → t.getV vf = 0x00#8) ∧
      t.dispChanged = true ∧ t.pc = s.pc + 2#16 ∧ Keeps (fun p => p = .framebuffer ∨ p = .reg vf) s t

/-- 43_display.md R196, which the spec marks as derived: after CLS, whatever its ignored nibble (D10; log 16, DESIGN CHOICE), a DRW
leaves the sprite alone on the display and reports VF = 0. Where the sprite's bits land, and n = 0, are decisions D13, D14 and D15
(log 18, DESIGN CHOICE). -/
def Obligations.ClearThenDraw : Prop :=
  ∀ (x₀ x y n : Nibble) (s : State) (rows : List Byte), rows.length = n.toNat → Holds s (s.effAddr 0) rows →
    ∃ t u, exec (.cls x₀) s = .next t ∧ exec (.drw x y n) t = .next u ∧
      (∀ r c, Lit u r c ↔ Covers (s.getV x) (s.getV y) rows r c) ∧ u.getV vf = 0x00#8

/-- 43_display.md R197, which the spec marks as derived: a second, equal DRW restores the framebuffer, and reports VF = 1 when some
pixel the sprite covers was off before the first. R197's own words ask only for a 1 bit in the sprite, which is false of R193 when
every covered pixel was lit (log 25, DEDUCED). Where the sprite's bits land, and n = 0, are decisions D13, D14 and D15 (log 18,
DESIGN CHOICE). -/
def Obligations.DrawTwiceRestores : Prop :=
  ∀ (x y n : Nibble) (s : State) (rows : List Byte), rows.length = n.toNat → Holds s (s.effAddr 0) rows →
    ∃ t, exec (.drw x y n) s = .next t ∧
      ∀ u : State, u.fb = t.fb → u.i = s.i → u.getV x = s.getV x → u.getV y = s.getV y →
        Holds u (s.effAddr 0) rows →
        ∃ v, exec (.drw x y n) u = .next v ∧ v.fb = s.fb ∧
          ((∃ r c, Covers (s.getV x) (s.getV y) rows r c ∧ ¬ Lit s r c) → v.getV vf = 0x01#8)

/-! ### Keys and timers -/

/-- 44_keys_timers.md R210-R212: with V[x] ≤ 0x0F, Ex9E skips iff the key is pressed and ExA1 iff it is not, and neither writes
anything but PC; with V[x] > 0x0F both halt (D19, D20). That a taken skip is pc + 4 is decision D9 (log 21, DESIGN CHOICE). -/
def Obligations.KeySkips : Prop :=
  ∀ (x : Nibble) (s : State),
    (∀ k : Fin 16, (s.getV x).toNat = k.val →
      (∃ t, exec (.skp x) s = .next t ∧ t.pc = (if s.keys[k] then s.pc + 4#16 else s.pc + 2#16) ∧ Keeps nothing s t) ∧
      (∃ t, exec (.sknp x) s = .next t ∧ t.pc = (if s.keys[k] then s.pc + 2#16 else s.pc + 4#16) ∧
        Keeps nothing s t)) ∧
    (0x0F < (s.getV x).toNat →
      exec (.skp x) s = .next (haltedBy .keyIndexOutOfRange (some (encode (.skp x))) s) ∧
      exec (.sknp x) s = .next (haltedBy .keyIndexOutOfRange (some (encode (.sknp x))) s))

/-- 44_keys_timers.md R214: with no key pressed Fx0A changes nothing at all; with some key pressed it writes the index of a pressed
key to V[x], which one being a draw (D18; log 4, log 5, DESIGN CHOICE). -/
def Obligations.KeyWait : Prop :=
  ∀ (x : Nibble) (s : State),
    ((∀ k : Fin 16, s.keys[k] = false) → exec (.ldVxK x) s = .next s) ∧
    (∀ k : Fin 16, s.keys[k] = true →
      ∃ (t : State) (j : Fin 16), exec (.ldVxK x) s = .next t ∧ s.keys[j] = true ∧ (t.getV x).toNat = j.val ∧
        t.pc = s.pc + 2#16 ∧ Keeps (fun p => p = .reg x ∨ p = .draws) s t)

/-- 44_keys_timers.md R213, R215, R216: Fx07 reads DT before the tick; Fx15 and Fx18 write a timer that the same step then ticks
(the meanings are from general knowledge, K5, K6, K7, log 22). -/
def Obligations.TimerTransfers : Prop :=
  ∀ (x : Nibble) (s : State),
    (∃ t, exec (.ldVxDt x) s = .next t ∧ t.getV x = s.dt ∧ t.dt.toNat = s.dt.toNat - 1 ∧ t.pc = s.pc + 2#16 ∧
      Keeps (fun p => p = .reg x) s t) ∧
    (∃ t, exec (.ldDtVx x) s = .next t ∧ t.dt.toNat = (s.getV x).toNat - 1 ∧ t.st.toNat = s.st.toNat - 1 ∧
      t.pc = s.pc + 2#16 ∧ Keeps nothing s t) ∧
    (∃ t, exec (.ldStVx x) s = .next t ∧ t.st.toNat = (s.getV x).toNat - 1 ∧ t.dt.toNat = s.dt.toNat - 1 ∧
      t.beep = decide (1 < (s.getV x).toNat) ∧ t.pc = s.pc + 2#16 ∧ Keeps nothing s t)

/-- 44_keys_timers.md R217, which the spec marks as derived: an Fx07 that comes m completed steps after an Fx15 with value v, none of
them writing DT, reads max(v - 1 - m, 0). The meanings of Fx07 and Fx15 are the spec's general knowledge (K5, K6; log 22, PRESUMED). -/
def Obligations.TimerObservation : Prop :=
  ∀ (x y : Nibble) (s t u w : State) (m : Nat),
    Completes (.ldDtVx x) s t → QuietSteps m t u → Completes (.ldVxDt y) u w →
    (w.getV y).toNat = (s.getV x).toNat - 1 - m

/-! ### The host's interactions -/

/-- 70_reset_and_hazards.md R275, 60_exceptions.md R248: the one `load`, when its image is too long, replies LoadError and leaves
the Machine as it was. KEYS are written, and nothing else of the Machine, before a step or a poll; on a halted Machine, which has no
step to come, the write is refused (D26, D30; log 13, DESIGN CHOICE). -/
def Obligations.HostTouchesOnlyItsParts : Prop :=
  ∀ σ : Session,
    (∀ image : List Byte, σ.phase = .constructed → 3584 < image.length →
      ∃ τ, Session.act σ (.load image) = .next τ ∧ τ.reply = .loadError ∧ τ.machine = σ.machine) ∧
    (∀ ks : Vector Bool 16, σ.machine.status = .running →
      ∃ τ, Session.act σ (.writeKeys ks) = .next τ ∧ τ.phase = σ.phase ∧ τ.machine = { σ.machine with keys := ks }) ∧
    (∀ (ks : Vector Bool 16) (rec : ErrorRecord), σ.machine.status = .halted rec →
      Session.act σ (.writeKeys ks) = .refused .keysOutsideLifecycle) ∧
    (∀ τ : Session, Session.act σ .step = .next τ → step σ.machine = .next τ.machine)
end

