-- ==== Sys2Proof/Laws/Encoding.lean ====
section
/-! SUPPORT. The packed opcode formats, bit field by bit field (30_encoding.md R91, R92). -/

namespace Sys2Proof

/-! ### The fields of a packed opcode -/

@[simp] theorem opField_packNNN (op : Nibble) (nnn : Addr) : opField (packNNN op nnn) = op := by
  refine BitVec.eq_of_getLsbD_eq fun i hi => ?_
  simp [-Nat.reduceAdd, opField, packNNN, BitVec.getLsbD_append, hi]

@[simp] theorem nnnField_packNNN (op : Nibble) (nnn : Addr) : nnnField (packNNN op nnn) = nnn := by
  refine BitVec.eq_of_getLsbD_eq fun i hi => ?_
  simp [-Nat.reduceAdd, nnnField, packNNN, BitVec.getLsbD_append, hi]

@[simp] theorem opField_packXKK (op x : Nibble) (kk : Byte) : opField (packXKK op x kk) = op := by
  refine BitVec.eq_of_getLsbD_eq fun i hi => ?_
  have h1 : ¬ 12 + i < 8 := by omega
  have h2 : ¬ 12 + i - 8 < 4 := by omega
  have h3 : 12 + i - 8 - 4 = i := by omega
  simp [-Nat.reduceAdd, opField, packXKK, BitVec.getLsbD_append, *]

@[simp] theorem xField_packXKK (op x : Nibble) (kk : Byte) : xField (packXKK op x kk) = x := by
  refine BitVec.eq_of_getLsbD_eq fun i hi => ?_
  simp [-Nat.reduceAdd, xField, packXKK, BitVec.getLsbD_append, hi]

@[simp] theorem kkField_packXKK (op x : Nibble) (kk : Byte) : kkField (packXKK op x kk) = kk := by
  refine BitVec.eq_of_getLsbD_eq fun i hi => ?_
  simp [-Nat.reduceAdd, kkField, packXKK, BitVec.getLsbD_append, hi]

/-- Format XYN is format XKK with the low byte split. -/
theorem packXYN_eq (op x y n : Nibble) :
    packXYN op x y n = packXKK op x (BitVec.cast (show 4 + 4 = 8 from rfl) (y ++ n)) := by
  refine BitVec.eq_of_getLsbD_eq fun i hi => ?_
  simp only [packXYN, packXKK, BitVec.getLsbD_append, BitVec.getLsbD_cast]
  by_cases h4 : i < 4
  · have h8 : i < 8 := by omega
    rw [if_pos h4, if_pos h8, if_pos h4]
  · by_cases h8 : i < 8
    · have h : i - 4 < 4 := by omega
      rw [if_neg h4, if_pos h, if_pos h8, if_neg h4]
    · have h : ¬ i - 4 < 4 := by omega
      have e : i - 4 - 4 = i - 8 := by omega
      rw [if_neg h4, if_neg h, if_neg h8, e]

@[simp] theorem opField_packXYN (op x y n : Nibble) : opField (packXYN op x y n) = op := by
  rw [packXYN_eq, opField_packXKK]

@[simp] theorem xField_packXYN (op x y n : Nibble) : xField (packXYN op x y n) = x := by
  rw [packXYN_eq, xField_packXKK]

@[simp] theorem yField_packXYN (op x y n : Nibble) : yField (packXYN op x y n) = y := by
  refine BitVec.eq_of_getLsbD_eq fun i hi => ?_
  simp [-Nat.reduceAdd, yField, packXYN, BitVec.getLsbD_append, hi]

@[simp] theorem nField_packXYN (op x y n : Nibble) : nField (packXYN op x y n) = n := by
  refine BitVec.eq_of_getLsbD_eq fun i hi => ?_
  simp [-Nat.reduceAdd, nField, packXYN, BitVec.getLsbD_append, hi]

/-! ### Every word is the packing of its own fields -/

theorem packNNN_fields (w : Word) : packNNN (opField w) (nnnField w) = w := by
  refine BitVec.eq_of_getLsbD_eq fun i hi => ?_
  simp only [packNNN, opField, nnnField, BitVec.getLsbD_append, BitVec.getLsbD_cast, BitVec.getLsbD_extractLsb']
  by_cases h : i < 12
  · simp [h]
  · have h1 : i - 12 < 4 := by omega
    have e : 12 + (i - 12) = i := by omega
    simp [h, h1, e]

theorem packXKK_fields (w : Word) : packXKK (opField w) (xField w) (kkField w) = w := by
  refine BitVec.eq_of_getLsbD_eq fun i hi => ?_
  simp only [packXKK, opField, xField, kkField, BitVec.getLsbD_append, BitVec.getLsbD_cast,
    BitVec.getLsbD_extractLsb']
  by_cases h : i < 8
  · simp [h]
  · by_cases h' : i - 8 < 4
    · have e : 8 + (i - 8) = i := by omega
      simp [h, h', e]
    · have h1 : i - 8 - 4 < 4 := by omega
      have e : 12 + (i - 8 - 4) = i := by omega
      simp [h, h', h1, e]

/-- The low byte is its two nibbles. -/
theorem kkField_eq (w : Word) : BitVec.cast (show 4 + 4 = 8 from rfl) (yField w ++ nField w) = kkField w := by
  refine BitVec.eq_of_getLsbD_eq fun i hi => ?_
  simp only [yField, nField, kkField, BitVec.getLsbD_append, BitVec.getLsbD_cast, BitVec.getLsbD_extractLsb']
  by_cases h : i < 4
  · simp [h, hi]
  · have h1 : i - 4 < 4 := by omega
    have e : 4 + (i - 4) = i := by omega
    simp [h, hi, h1, e]

theorem packXYN_fields (w : Word) : packXYN (opField w) (xField w) (yField w) (nField w) = w := by
  rw [packXYN_eq, kkField_eq, packXKK_fields]

/-! ### Masking -/

/-- Bit i of 0xF000 is set iff i is 12 or more. -/
theorem getLsbD_F000 (i : Nat) (hi : i < 16) : (0xF000#16 : Word).getLsbD i = decide (12 ≤ i) := by
  revert i; decide

/-- Bit i of 0xF0FF is set iff i is 12 or more, or below 8. -/
theorem getLsbD_F0FF (i : Nat) (hi : i < 16) : (0xF0FF#16 : Word).getLsbD i = decide (12 ≤ i ∨ i < 8) := by
  revert i; decide

/-- Bit i of 0xF00F is set iff i is 12 or more, or below 4. -/
theorem getLsbD_F00F (i : Nat) (hi : i < 16) : (0xF00F#16 : Word).getLsbD i = decide (12 ≤ i ∨ i < 4) := by
  revert i; decide

/-- The mask 0xF000 keeps the high nibble. -/
theorem and_F000 (w : Word) : w &&& 0xF000#16 = packNNN (opField w) 0 := by
  refine BitVec.eq_of_getLsbD_eq fun i hi => ?_
  rw [BitVec.getLsbD_and, getLsbD_F000 i hi]
  by_cases h : i < 12
  · have h1 : ¬ 12 ≤ i := by omega
    simp [-Nat.reduceAdd, packNNN, BitVec.getLsbD_append, h]
  · have h1 : 12 ≤ i := by omega
    have h2 : i - 12 < 4 := by omega
    simp [-Nat.reduceAdd, packNNN, opField, BitVec.getLsbD_append, h, h1, h2]

/-- The mask 0xF0FF keeps the high nibble and the low byte. -/
theorem and_F0FF (w : Word) : w &&& 0xF0FF#16 = packXKK (opField w) 0 (kkField w) := by
  refine BitVec.eq_of_getLsbD_eq fun i hi => ?_
  rw [BitVec.getLsbD_and, getLsbD_F0FF i hi]
  by_cases h : i < 8
  · simp [-Nat.reduceAdd, packXKK, kkField, BitVec.getLsbD_append, h]
  · by_cases h' : i - 8 < 4
    · have h1 : ¬ 12 ≤ i := by omega
      simp [-Nat.reduceAdd, packXKK, BitVec.getLsbD_append, h, h', h1]
    · have h1 : 12 ≤ i := by omega
      have h2 : i - 8 - 4 < 4 := by omega
      have h3 : 12 + (i - 8 - 4) = i := by omega
      simp [-Nat.reduceAdd, packXKK, opField, BitVec.getLsbD_append, h, h', h1, h2, h3]

/-- The mask 0xF00F keeps the high nibble and the low nibble. -/
theorem and_F00F (w : Word) : w &&& 0xF00F#16 = packXYN (opField w) 0 0 (nField w) := by
  refine BitVec.eq_of_getLsbD_eq fun i hi => ?_
  rw [BitVec.getLsbD_and, getLsbD_F00F i hi]
  simp only [packXYN, opField, nField, BitVec.getLsbD_append, BitVec.getLsbD_cast, BitVec.getLsbD_extractLsb']
  by_cases h : i < 4
  · simp [h]
  · by_cases h8 : i - 4 < 4
    · have h1 : ¬ 12 ≤ i := by omega
      simp [h, h8, h1]
    · by_cases h' : i - 4 - 4 < 4
      · have h1 : ¬ 12 ≤ i := by omega
        simp [h, h8, h', h1]
      · have h1 : 12 ≤ i := by omega
        have h2 : i - 4 - 4 - 4 < 4 := by omega
        have h3 : 12 + (i - 4 - 4 - 4) = i := by omega
        simp [h, h8, h', h1, h2, h3]

end Sys2Proof
end

