-- ==== Sys2Proof/Laws/State.lean ====
section
/-! SUPPORT. What each update of the state does to each field, once. -/

namespace Sys2Proof.Machine

/-! ### putByte -/

@[simp] theorem State.putByte_params (s : State) (a : Nat) (b : Byte) : (s.putByte a b).params = s.params := rfl
@[simp] theorem State.putByte_mem (s : State) (a : Nat) (b : Byte) : (s.putByte a b).mem = Memory.store (resetByte s.params a) a b s.mem := rfl
@[simp] theorem State.putByte_v (s : State) (a : Nat) (b : Byte) : (s.putByte a b).v = s.v := rfl
@[simp] theorem State.putByte_i (s : State) (a : Nat) (b : Byte) : (s.putByte a b).i = s.i := rfl
@[simp] theorem State.putByte_pc (s : State) (a : Nat) (b : Byte) : (s.putByte a b).pc = s.pc := rfl
@[simp] theorem State.putByte_sp (s : State) (a : Nat) (b : Byte) : (s.putByte a b).sp = s.sp := rfl
@[simp] theorem State.putByte_stack (s : State) (a : Nat) (b : Byte) : (s.putByte a b).stack = s.stack := rfl
@[simp] theorem State.putByte_dt (s : State) (a : Nat) (b : Byte) : (s.putByte a b).dt = s.dt := rfl
@[simp] theorem State.putByte_st (s : State) (a : Nat) (b : Byte) : (s.putByte a b).st = s.st := rfl
@[simp] theorem State.putByte_keys (s : State) (a : Nat) (b : Byte) : (s.putByte a b).keys = s.keys := rfl
@[simp] theorem State.putByte_fb (s : State) (a : Nat) (b : Byte) : (s.putByte a b).fb = s.fb := rfl
@[simp] theorem State.putByte_dispChanged (s : State) (a : Nat) (b : Byte) : (s.putByte a b).dispChanged = s.dispChanged := rfl
@[simp] theorem State.putByte_beep (s : State) (a : Nat) (b : Byte) : (s.putByte a b).beep = s.beep := rfl
@[simp] theorem State.putByte_status (s : State) (a : Nat) (b : Byte) : (s.putByte a b).status = s.status := rfl
@[simp] theorem State.putByte_draws (s : State) (a : Nat) (b : Byte) : (s.putByte a b).draws = s.draws := rfl

/-! ### setV -/

@[simp] theorem State.setV_params (s : State) (x : Nibble) (b : Byte) : (s.setV x b).params = s.params := rfl
@[simp] theorem State.setV_mem (s : State) (x : Nibble) (b : Byte) : (s.setV x b).mem = s.mem := rfl
@[simp] theorem State.setV_v (s : State) (x : Nibble) (b : Byte) : (s.setV x b).v = s.v.set x.toNat b x.isLt := rfl
@[simp] theorem State.setV_i (s : State) (x : Nibble) (b : Byte) : (s.setV x b).i = s.i := rfl
@[simp] theorem State.setV_pc (s : State) (x : Nibble) (b : Byte) : (s.setV x b).pc = s.pc := rfl
@[simp] theorem State.setV_sp (s : State) (x : Nibble) (b : Byte) : (s.setV x b).sp = s.sp := rfl
@[simp] theorem State.setV_stack (s : State) (x : Nibble) (b : Byte) : (s.setV x b).stack = s.stack := rfl
@[simp] theorem State.setV_dt (s : State) (x : Nibble) (b : Byte) : (s.setV x b).dt = s.dt := rfl
@[simp] theorem State.setV_st (s : State) (x : Nibble) (b : Byte) : (s.setV x b).st = s.st := rfl
@[simp] theorem State.setV_keys (s : State) (x : Nibble) (b : Byte) : (s.setV x b).keys = s.keys := rfl
@[simp] theorem State.setV_fb (s : State) (x : Nibble) (b : Byte) : (s.setV x b).fb = s.fb := rfl
@[simp] theorem State.setV_dispChanged (s : State) (x : Nibble) (b : Byte) : (s.setV x b).dispChanged = s.dispChanged := rfl
@[simp] theorem State.setV_beep (s : State) (x : Nibble) (b : Byte) : (s.setV x b).beep = s.beep := rfl
@[simp] theorem State.setV_status (s : State) (x : Nibble) (b : Byte) : (s.setV x b).status = s.status := rfl
@[simp] theorem State.setV_draws (s : State) (x : Nibble) (b : Byte) : (s.setV x b).draws = s.draws := rfl

/-! ### loadRegs -/

@[simp] theorem State.loadRegs_params (s : State) (bs : List Byte) : (s.loadRegs bs).params = s.params := rfl
@[simp] theorem State.loadRegs_mem (s : State) (bs : List Byte) : (s.loadRegs bs).mem = s.mem := rfl
@[simp] theorem State.loadRegs_v (s : State) (bs : List Byte) : (s.loadRegs bs).v = Vector.ofFn fun j : Fin 16 => (bs[j.val]?).getD s.v[j] := rfl
@[simp] theorem State.loadRegs_i (s : State) (bs : List Byte) : (s.loadRegs bs).i = s.i := rfl
@[simp] theorem State.loadRegs_pc (s : State) (bs : List Byte) : (s.loadRegs bs).pc = s.pc := rfl
@[simp] theorem State.loadRegs_sp (s : State) (bs : List Byte) : (s.loadRegs bs).sp = s.sp := rfl
@[simp] theorem State.loadRegs_stack (s : State) (bs : List Byte) : (s.loadRegs bs).stack = s.stack := rfl
@[simp] theorem State.loadRegs_dt (s : State) (bs : List Byte) : (s.loadRegs bs).dt = s.dt := rfl
@[simp] theorem State.loadRegs_st (s : State) (bs : List Byte) : (s.loadRegs bs).st = s.st := rfl
@[simp] theorem State.loadRegs_keys (s : State) (bs : List Byte) : (s.loadRegs bs).keys = s.keys := rfl
@[simp] theorem State.loadRegs_fb (s : State) (bs : List Byte) : (s.loadRegs bs).fb = s.fb := rfl
@[simp] theorem State.loadRegs_dispChanged (s : State) (bs : List Byte) : (s.loadRegs bs).dispChanged = s.dispChanged := rfl
@[simp] theorem State.loadRegs_beep (s : State) (bs : List Byte) : (s.loadRegs bs).beep = s.beep := rfl
@[simp] theorem State.loadRegs_status (s : State) (bs : List Byte) : (s.loadRegs bs).status = s.status := rfl
@[simp] theorem State.loadRegs_draws (s : State) (bs : List Byte) : (s.loadRegs bs).draws = s.draws := rfl

/-! ### setI -/

@[simp] theorem State.setI_params (s : State) (w : Word) : (s.setI w).params = s.params := rfl
@[simp] theorem State.setI_mem (s : State) (w : Word) : (s.setI w).mem = s.mem := rfl
@[simp] theorem State.setI_v (s : State) (w : Word) : (s.setI w).v = s.v := rfl
@[simp] theorem State.setI_i (s : State) (w : Word) : (s.setI w).i = w := rfl
@[simp] theorem State.setI_pc (s : State) (w : Word) : (s.setI w).pc = s.pc := rfl
@[simp] theorem State.setI_sp (s : State) (w : Word) : (s.setI w).sp = s.sp := rfl
@[simp] theorem State.setI_stack (s : State) (w : Word) : (s.setI w).stack = s.stack := rfl
@[simp] theorem State.setI_dt (s : State) (w : Word) : (s.setI w).dt = s.dt := rfl
@[simp] theorem State.setI_st (s : State) (w : Word) : (s.setI w).st = s.st := rfl
@[simp] theorem State.setI_keys (s : State) (w : Word) : (s.setI w).keys = s.keys := rfl
@[simp] theorem State.setI_fb (s : State) (w : Word) : (s.setI w).fb = s.fb := rfl
@[simp] theorem State.setI_dispChanged (s : State) (w : Word) : (s.setI w).dispChanged = s.dispChanged := rfl
@[simp] theorem State.setI_beep (s : State) (w : Word) : (s.setI w).beep = s.beep := rfl
@[simp] theorem State.setI_status (s : State) (w : Word) : (s.setI w).status = s.status := rfl
@[simp] theorem State.setI_draws (s : State) (w : Word) : (s.setI w).draws = s.draws := rfl

/-! ### setDt -/

@[simp] theorem State.setDt_params (s : State) (b : Byte) : (s.setDt b).params = s.params := rfl
@[simp] theorem State.setDt_mem (s : State) (b : Byte) : (s.setDt b).mem = s.mem := rfl
@[simp] theorem State.setDt_v (s : State) (b : Byte) : (s.setDt b).v = s.v := rfl
@[simp] theorem State.setDt_i (s : State) (b : Byte) : (s.setDt b).i = s.i := rfl
@[simp] theorem State.setDt_pc (s : State) (b : Byte) : (s.setDt b).pc = s.pc := rfl
@[simp] theorem State.setDt_sp (s : State) (b : Byte) : (s.setDt b).sp = s.sp := rfl
@[simp] theorem State.setDt_stack (s : State) (b : Byte) : (s.setDt b).stack = s.stack := rfl
@[simp] theorem State.setDt_dt (s : State) (b : Byte) : (s.setDt b).dt = b := rfl
@[simp] theorem State.setDt_st (s : State) (b : Byte) : (s.setDt b).st = s.st := rfl
@[simp] theorem State.setDt_keys (s : State) (b : Byte) : (s.setDt b).keys = s.keys := rfl
@[simp] theorem State.setDt_fb (s : State) (b : Byte) : (s.setDt b).fb = s.fb := rfl
@[simp] theorem State.setDt_dispChanged (s : State) (b : Byte) : (s.setDt b).dispChanged = s.dispChanged := rfl
@[simp] theorem State.setDt_beep (s : State) (b : Byte) : (s.setDt b).beep = s.beep := rfl
@[simp] theorem State.setDt_status (s : State) (b : Byte) : (s.setDt b).status = s.status := rfl
@[simp] theorem State.setDt_draws (s : State) (b : Byte) : (s.setDt b).draws = s.draws := rfl

/-! ### setSt -/

@[simp] theorem State.setSt_params (s : State) (b : Byte) : (s.setSt b).params = s.params := rfl
@[simp] theorem State.setSt_mem (s : State) (b : Byte) : (s.setSt b).mem = s.mem := rfl
@[simp] theorem State.setSt_v (s : State) (b : Byte) : (s.setSt b).v = s.v := rfl
@[simp] theorem State.setSt_i (s : State) (b : Byte) : (s.setSt b).i = s.i := rfl
@[simp] theorem State.setSt_pc (s : State) (b : Byte) : (s.setSt b).pc = s.pc := rfl
@[simp] theorem State.setSt_sp (s : State) (b : Byte) : (s.setSt b).sp = s.sp := rfl
@[simp] theorem State.setSt_stack (s : State) (b : Byte) : (s.setSt b).stack = s.stack := rfl
@[simp] theorem State.setSt_dt (s : State) (b : Byte) : (s.setSt b).dt = s.dt := rfl
@[simp] theorem State.setSt_st (s : State) (b : Byte) : (s.setSt b).st = b := rfl
@[simp] theorem State.setSt_keys (s : State) (b : Byte) : (s.setSt b).keys = s.keys := rfl
@[simp] theorem State.setSt_fb (s : State) (b : Byte) : (s.setSt b).fb = s.fb := rfl
@[simp] theorem State.setSt_dispChanged (s : State) (b : Byte) : (s.setSt b).dispChanged = s.dispChanged := rfl
@[simp] theorem State.setSt_beep (s : State) (b : Byte) : (s.setSt b).beep = s.beep := rfl
@[simp] theorem State.setSt_status (s : State) (b : Byte) : (s.setSt b).status = s.status := rfl
@[simp] theorem State.setSt_draws (s : State) (b : Byte) : (s.setSt b).draws = s.draws := rfl

/-! ### setFb -/

@[simp] theorem State.setFb_params (s : State) (f : Framebuffer) : (s.setFb f).params = s.params := rfl
@[simp] theorem State.setFb_mem (s : State) (f : Framebuffer) : (s.setFb f).mem = s.mem := rfl
@[simp] theorem State.setFb_v (s : State) (f : Framebuffer) : (s.setFb f).v = s.v := rfl
@[simp] theorem State.setFb_i (s : State) (f : Framebuffer) : (s.setFb f).i = s.i := rfl
@[simp] theorem State.setFb_pc (s : State) (f : Framebuffer) : (s.setFb f).pc = s.pc := rfl
@[simp] theorem State.setFb_sp (s : State) (f : Framebuffer) : (s.setFb f).sp = s.sp := rfl
@[simp] theorem State.setFb_stack (s : State) (f : Framebuffer) : (s.setFb f).stack = s.stack := rfl
@[simp] theorem State.setFb_dt (s : State) (f : Framebuffer) : (s.setFb f).dt = s.dt := rfl
@[simp] theorem State.setFb_st (s : State) (f : Framebuffer) : (s.setFb f).st = s.st := rfl
@[simp] theorem State.setFb_keys (s : State) (f : Framebuffer) : (s.setFb f).keys = s.keys := rfl
@[simp] theorem State.setFb_fb (s : State) (f : Framebuffer) : (s.setFb f).fb = f := rfl
@[simp] theorem State.setFb_dispChanged (s : State) (f : Framebuffer) : (s.setFb f).dispChanged = s.dispChanged := rfl
@[simp] theorem State.setFb_beep (s : State) (f : Framebuffer) : (s.setFb f).beep = s.beep := rfl
@[simp] theorem State.setFb_status (s : State) (f : Framebuffer) : (s.setFb f).status = s.status := rfl
@[simp] theorem State.setFb_draws (s : State) (f : Framebuffer) : (s.setFb f).draws = s.draws := rfl

/-! ### jump -/

@[simp] theorem State.jump_params (s : State) (w : Word) : (s.jump w).params = s.params := rfl
@[simp] theorem State.jump_mem (s : State) (w : Word) : (s.jump w).mem = s.mem := rfl
@[simp] theorem State.jump_v (s : State) (w : Word) : (s.jump w).v = s.v := rfl
@[simp] theorem State.jump_i (s : State) (w : Word) : (s.jump w).i = s.i := rfl
@[simp] theorem State.jump_pc (s : State) (w : Word) : (s.jump w).pc = w := rfl
@[simp] theorem State.jump_sp (s : State) (w : Word) : (s.jump w).sp = s.sp := rfl
@[simp] theorem State.jump_stack (s : State) (w : Word) : (s.jump w).stack = s.stack := rfl
@[simp] theorem State.jump_dt (s : State) (w : Word) : (s.jump w).dt = s.dt := rfl
@[simp] theorem State.jump_st (s : State) (w : Word) : (s.jump w).st = s.st := rfl
@[simp] theorem State.jump_keys (s : State) (w : Word) : (s.jump w).keys = s.keys := rfl
@[simp] theorem State.jump_fb (s : State) (w : Word) : (s.jump w).fb = s.fb := rfl
@[simp] theorem State.jump_dispChanged (s : State) (w : Word) : (s.jump w).dispChanged = s.dispChanged := rfl
@[simp] theorem State.jump_beep (s : State) (w : Word) : (s.jump w).beep = s.beep := rfl
@[simp] theorem State.jump_status (s : State) (w : Word) : (s.jump w).status = s.status := rfl
@[simp] theorem State.jump_draws (s : State) (w : Word) : (s.jump w).draws = s.draws := rfl

/-! ### advance -/

@[simp] theorem State.advance_params (s : State) : (s.advance).params = s.params := rfl
@[simp] theorem State.advance_mem (s : State) : (s.advance).mem = s.mem := rfl
@[simp] theorem State.advance_v (s : State) : (s.advance).v = s.v := rfl
@[simp] theorem State.advance_i (s : State) : (s.advance).i = s.i := rfl
@[simp] theorem State.advance_pc (s : State) : (s.advance).pc = s.pc + 2#16 := rfl
@[simp] theorem State.advance_sp (s : State) : (s.advance).sp = s.sp := rfl
@[simp] theorem State.advance_stack (s : State) : (s.advance).stack = s.stack := rfl
@[simp] theorem State.advance_dt (s : State) : (s.advance).dt = s.dt := rfl
@[simp] theorem State.advance_st (s : State) : (s.advance).st = s.st := rfl
@[simp] theorem State.advance_keys (s : State) : (s.advance).keys = s.keys := rfl
@[simp] theorem State.advance_fb (s : State) : (s.advance).fb = s.fb := rfl
@[simp] theorem State.advance_dispChanged (s : State) : (s.advance).dispChanged = s.dispChanged := rfl
@[simp] theorem State.advance_beep (s : State) : (s.advance).beep = s.beep := rfl
@[simp] theorem State.advance_status (s : State) : (s.advance).status = s.status := rfl
@[simp] theorem State.advance_draws (s : State) : (s.advance).draws = s.draws := rfl

/-! ### skipIf -/

@[simp] theorem State.skipIf_params (s : State) (c : Bool) : (s.skipIf c).params = s.params := rfl
@[simp] theorem State.skipIf_mem (s : State) (c : Bool) : (s.skipIf c).mem = s.mem := rfl
@[simp] theorem State.skipIf_v (s : State) (c : Bool) : (s.skipIf c).v = s.v := rfl
@[simp] theorem State.skipIf_i (s : State) (c : Bool) : (s.skipIf c).i = s.i := rfl
@[simp] theorem State.skipIf_pc (s : State) (c : Bool) : (s.skipIf c).pc = if c then s.pc + 4#16 else s.pc + 2#16 := rfl
@[simp] theorem State.skipIf_sp (s : State) (c : Bool) : (s.skipIf c).sp = s.sp := rfl
@[simp] theorem State.skipIf_stack (s : State) (c : Bool) : (s.skipIf c).stack = s.stack := rfl
@[simp] theorem State.skipIf_dt (s : State) (c : Bool) : (s.skipIf c).dt = s.dt := rfl
@[simp] theorem State.skipIf_st (s : State) (c : Bool) : (s.skipIf c).st = s.st := rfl
@[simp] theorem State.skipIf_keys (s : State) (c : Bool) : (s.skipIf c).keys = s.keys := rfl
@[simp] theorem State.skipIf_fb (s : State) (c : Bool) : (s.skipIf c).fb = s.fb := rfl
@[simp] theorem State.skipIf_dispChanged (s : State) (c : Bool) : (s.skipIf c).dispChanged = s.dispChanged := rfl
@[simp] theorem State.skipIf_beep (s : State) (c : Bool) : (s.skipIf c).beep = s.beep := rfl
@[simp] theorem State.skipIf_status (s : State) (c : Bool) : (s.skipIf c).status = s.status := rfl
@[simp] theorem State.skipIf_draws (s : State) (c : Bool) : (s.skipIf c).draws = s.draws := rfl

/-! ### takeDraw -/

@[simp] theorem State.takeDraw_params (s : State) : (s.takeDraw).params = s.params := rfl
@[simp] theorem State.takeDraw_mem (s : State) : (s.takeDraw).mem = s.mem := rfl
@[simp] theorem State.takeDraw_v (s : State) : (s.takeDraw).v = s.v := rfl
@[simp] theorem State.takeDraw_i (s : State) : (s.takeDraw).i = s.i := rfl
@[simp] theorem State.takeDraw_pc (s : State) : (s.takeDraw).pc = s.pc := rfl
@[simp] theorem State.takeDraw_sp (s : State) : (s.takeDraw).sp = s.sp := rfl
@[simp] theorem State.takeDraw_stack (s : State) : (s.takeDraw).stack = s.stack := rfl
@[simp] theorem State.takeDraw_dt (s : State) : (s.takeDraw).dt = s.dt := rfl
@[simp] theorem State.takeDraw_st (s : State) : (s.takeDraw).st = s.st := rfl
@[simp] theorem State.takeDraw_keys (s : State) : (s.takeDraw).keys = s.keys := rfl
@[simp] theorem State.takeDraw_fb (s : State) : (s.takeDraw).fb = s.fb := rfl
@[simp] theorem State.takeDraw_dispChanged (s : State) : (s.takeDraw).dispChanged = s.dispChanged := rfl
@[simp] theorem State.takeDraw_beep (s : State) : (s.takeDraw).beep = s.beep := rfl
@[simp] theorem State.takeDraw_status (s : State) : (s.takeDraw).status = s.status := rfl
@[simp] theorem State.takeDraw_draws (s : State) : (s.takeDraw).draws = s.draws + 1 := rfl

/-! ### finish -/

@[simp] theorem State.finish_params (s : State) (drew : Bool) : (s.finish drew).params = s.params := rfl
@[simp] theorem State.finish_mem (s : State) (drew : Bool) : (s.finish drew).mem = s.mem := rfl
@[simp] theorem State.finish_v (s : State) (drew : Bool) : (s.finish drew).v = s.v := rfl
@[simp] theorem State.finish_i (s : State) (drew : Bool) : (s.finish drew).i = s.i := rfl
@[simp] theorem State.finish_pc (s : State) (drew : Bool) : (s.finish drew).pc = s.pc := rfl
@[simp] theorem State.finish_sp (s : State) (drew : Bool) : (s.finish drew).sp = s.sp := rfl
@[simp] theorem State.finish_stack (s : State) (drew : Bool) : (s.finish drew).stack = s.stack := rfl
@[simp] theorem State.finish_dt (s : State) (drew : Bool) : (s.finish drew).dt = tick s.dt := rfl
@[simp] theorem State.finish_st (s : State) (drew : Bool) : (s.finish drew).st = tick s.st := rfl
@[simp] theorem State.finish_keys (s : State) (drew : Bool) : (s.finish drew).keys = s.keys := rfl
@[simp] theorem State.finish_fb (s : State) (drew : Bool) : (s.finish drew).fb = s.fb := rfl
@[simp] theorem State.finish_dispChanged (s : State) (drew : Bool) : (s.finish drew).dispChanged = drew := rfl
@[simp] theorem State.finish_beep (s : State) (drew : Bool) : (s.finish drew).beep = (tick s.st != 0#8) := rfl
@[simp] theorem State.finish_status (s : State) (drew : Bool) : (s.finish drew).status = s.status := rfl
@[simp] theorem State.finish_draws (s : State) (drew : Bool) : (s.finish drew).draws = s.draws := rfl

/-! ### raiseHalt -/

@[simp] theorem State.raiseHalt_params (s : State) (r : HaltReason) (o : Option Word) : (s.raiseHalt r o).params = s.params := rfl
@[simp] theorem State.raiseHalt_mem (s : State) (r : HaltReason) (o : Option Word) : (s.raiseHalt r o).mem = s.mem := rfl
@[simp] theorem State.raiseHalt_v (s : State) (r : HaltReason) (o : Option Word) : (s.raiseHalt r o).v = s.v := rfl
@[simp] theorem State.raiseHalt_i (s : State) (r : HaltReason) (o : Option Word) : (s.raiseHalt r o).i = s.i := rfl
@[simp] theorem State.raiseHalt_pc (s : State) (r : HaltReason) (o : Option Word) : (s.raiseHalt r o).pc = s.pc := rfl
@[simp] theorem State.raiseHalt_sp (s : State) (r : HaltReason) (o : Option Word) : (s.raiseHalt r o).sp = s.sp := rfl
@[simp] theorem State.raiseHalt_stack (s : State) (r : HaltReason) (o : Option Word) : (s.raiseHalt r o).stack = s.stack := rfl
@[simp] theorem State.raiseHalt_dt (s : State) (r : HaltReason) (o : Option Word) : (s.raiseHalt r o).dt = s.dt := rfl
@[simp] theorem State.raiseHalt_st (s : State) (r : HaltReason) (o : Option Word) : (s.raiseHalt r o).st = s.st := rfl
@[simp] theorem State.raiseHalt_keys (s : State) (r : HaltReason) (o : Option Word) : (s.raiseHalt r o).keys = s.keys := rfl
@[simp] theorem State.raiseHalt_fb (s : State) (r : HaltReason) (o : Option Word) : (s.raiseHalt r o).fb = s.fb := rfl
@[simp] theorem State.raiseHalt_dispChanged (s : State) (r : HaltReason) (o : Option Word) : (s.raiseHalt r o).dispChanged = s.dispChanged := rfl
@[simp] theorem State.raiseHalt_beep (s : State) (r : HaltReason) (o : Option Word) : (s.raiseHalt r o).beep = s.beep := rfl
@[simp] theorem State.raiseHalt_status (s : State) (r : HaltReason) (o : Option Word) : (s.raiseHalt r o).status = .halted ⟨r, o, s.pc⟩ := rfl
@[simp] theorem State.raiseHalt_draws (s : State) (r : HaltReason) (o : Option Word) : (s.raiseHalt r o).draws = s.draws := rfl

/-! ### writeKeys -/

@[simp] theorem State.writeKeys_params (s : State) (ks : Vector Bool 16) : (s.writeKeys ks).params = s.params := rfl
@[simp] theorem State.writeKeys_mem (s : State) (ks : Vector Bool 16) : (s.writeKeys ks).mem = s.mem := rfl
@[simp] theorem State.writeKeys_v (s : State) (ks : Vector Bool 16) : (s.writeKeys ks).v = s.v := rfl
@[simp] theorem State.writeKeys_i (s : State) (ks : Vector Bool 16) : (s.writeKeys ks).i = s.i := rfl
@[simp] theorem State.writeKeys_pc (s : State) (ks : Vector Bool 16) : (s.writeKeys ks).pc = s.pc := rfl
@[simp] theorem State.writeKeys_sp (s : State) (ks : Vector Bool 16) : (s.writeKeys ks).sp = s.sp := rfl
@[simp] theorem State.writeKeys_stack (s : State) (ks : Vector Bool 16) : (s.writeKeys ks).stack = s.stack := rfl
@[simp] theorem State.writeKeys_dt (s : State) (ks : Vector Bool 16) : (s.writeKeys ks).dt = s.dt := rfl
@[simp] theorem State.writeKeys_st (s : State) (ks : Vector Bool 16) : (s.writeKeys ks).st = s.st := rfl
@[simp] theorem State.writeKeys_keys (s : State) (ks : Vector Bool 16) : (s.writeKeys ks).keys = ks := rfl
@[simp] theorem State.writeKeys_fb (s : State) (ks : Vector Bool 16) : (s.writeKeys ks).fb = s.fb := rfl
@[simp] theorem State.writeKeys_dispChanged (s : State) (ks : Vector Bool 16) : (s.writeKeys ks).dispChanged = s.dispChanged := rfl
@[simp] theorem State.writeKeys_beep (s : State) (ks : Vector Bool 16) : (s.writeKeys ks).beep = s.beep := rfl
@[simp] theorem State.writeKeys_status (s : State) (ks : Vector Bool 16) : (s.writeKeys ks).status = s.status := rfl
@[simp] theorem State.writeKeys_draws (s : State) (ks : Vector Bool 16) : (s.writeKeys ks).draws = s.draws := rfl

/-! ### Reading a register or a byte after an update of something else -/

@[simp] theorem State.putByte_getV (s : State) (a : Nat) (b : Byte) (r : Nibble) : (s.putByte a b).getV r = s.getV r := rfl
@[simp] theorem State.setV_byteAt (s : State) (x : Nibble) (b : Byte) (k : Nat) : (s.setV x b).byteAt k = s.byteAt k := rfl
@[simp] theorem State.setV_memRead (s : State) (x : Nibble) (b : Byte) (k : Nat) : (s.setV x b).memRead k = s.memRead k := rfl
@[simp] theorem State.loadRegs_byteAt (s : State) (bs : List Byte) (k : Nat) : (s.loadRegs bs).byteAt k = s.byteAt k := rfl
@[simp] theorem State.loadRegs_memRead (s : State) (bs : List Byte) (k : Nat) : (s.loadRegs bs).memRead k = s.memRead k := rfl
@[simp] theorem State.setI_getV (s : State) (w : Word) (r : Nibble) : (s.setI w).getV r = s.getV r := rfl
@[simp] theorem State.setI_byteAt (s : State) (w : Word) (k : Nat) : (s.setI w).byteAt k = s.byteAt k := rfl
@[simp] theorem State.setI_memRead (s : State) (w : Word) (k : Nat) : (s.setI w).memRead k = s.memRead k := rfl
@[simp] theorem State.setDt_getV (s : State) (b : Byte) (r : Nibble) : (s.setDt b).getV r = s.getV r := rfl
@[simp] theorem State.setDt_byteAt (s : State) (b : Byte) (k : Nat) : (s.setDt b).byteAt k = s.byteAt k := rfl
@[simp] theorem State.setDt_memRead (s : State) (b : Byte) (k : Nat) : (s.setDt b).memRead k = s.memRead k := rfl
@[simp] theorem State.setSt_getV (s : State) (b : Byte) (r : Nibble) : (s.setSt b).getV r = s.getV r := rfl
@[simp] theorem State.setSt_byteAt (s : State) (b : Byte) (k : Nat) : (s.setSt b).byteAt k = s.byteAt k := rfl
@[simp] theorem State.setSt_memRead (s : State) (b : Byte) (k : Nat) : (s.setSt b).memRead k = s.memRead k := rfl
@[simp] theorem State.setFb_getV (s : State) (f : Framebuffer) (r : Nibble) : (s.setFb f).getV r = s.getV r := rfl
@[simp] theorem State.setFb_byteAt (s : State) (f : Framebuffer) (k : Nat) : (s.setFb f).byteAt k = s.byteAt k := rfl
@[simp] theorem State.setFb_memRead (s : State) (f : Framebuffer) (k : Nat) : (s.setFb f).memRead k = s.memRead k := rfl
@[simp] theorem State.jump_getV (s : State) (w : Word) (r : Nibble) : (s.jump w).getV r = s.getV r := rfl
@[simp] theorem State.jump_byteAt (s : State) (w : Word) (k : Nat) : (s.jump w).byteAt k = s.byteAt k := rfl
@[simp] theorem State.jump_memRead (s : State) (w : Word) (k : Nat) : (s.jump w).memRead k = s.memRead k := rfl
@[simp] theorem State.advance_getV (s : State) (r : Nibble) : (s.advance).getV r = s.getV r := rfl
@[simp] theorem State.advance_byteAt (s : State) (k : Nat) : (s.advance).byteAt k = s.byteAt k := rfl
@[simp] theorem State.advance_memRead (s : State) (k : Nat) : (s.advance).memRead k = s.memRead k := rfl
@[simp] theorem State.skipIf_getV (s : State) (c : Bool) (r : Nibble) : (s.skipIf c).getV r = s.getV r := rfl
@[simp] theorem State.skipIf_byteAt (s : State) (c : Bool) (k : Nat) : (s.skipIf c).byteAt k = s.byteAt k := rfl
@[simp] theorem State.skipIf_memRead (s : State) (c : Bool) (k : Nat) : (s.skipIf c).memRead k = s.memRead k := rfl
@[simp] theorem State.takeDraw_getV (s : State) (r : Nibble) : (s.takeDraw).getV r = s.getV r := rfl
@[simp] theorem State.takeDraw_byteAt (s : State) (k : Nat) : (s.takeDraw).byteAt k = s.byteAt k := rfl
@[simp] theorem State.takeDraw_memRead (s : State) (k : Nat) : (s.takeDraw).memRead k = s.memRead k := rfl
@[simp] theorem State.finish_getV (s : State) (drew : Bool) (r : Nibble) : (s.finish drew).getV r = s.getV r := rfl
@[simp] theorem State.finish_byteAt (s : State) (drew : Bool) (k : Nat) : (s.finish drew).byteAt k = s.byteAt k := rfl
@[simp] theorem State.finish_memRead (s : State) (drew : Bool) (k : Nat) : (s.finish drew).memRead k = s.memRead k := rfl
@[simp] theorem State.raiseHalt_getV (s : State) (r : HaltReason) (o : Option Word) (q : Nibble) : (s.raiseHalt r o).getV q = s.getV q := rfl
@[simp] theorem State.raiseHalt_byteAt (s : State) (r : HaltReason) (o : Option Word) (k : Nat) : (s.raiseHalt r o).byteAt k = s.byteAt k := rfl
@[simp] theorem State.raiseHalt_memRead (s : State) (r : HaltReason) (o : Option Word) (k : Nat) : (s.raiseHalt r o).memRead k = s.memRead k := rfl
@[simp] theorem State.writeKeys_getV (s : State) (ks : Vector Bool 16) (r : Nibble) : (s.writeKeys ks).getV r = s.getV r := rfl
@[simp] theorem State.writeKeys_byteAt (s : State) (ks : Vector Bool 16) (k : Nat) : (s.writeKeys ks).byteAt k = s.byteAt k := rfl
@[simp] theorem State.writeKeys_memRead (s : State) (ks : Vector Bool 16) (k : Nat) : (s.writeKeys ks).memRead k = s.memRead k := rfl

end Sys2Proof.Machine
end

