-- ==== Sys2Proof/Laws/Memory.lean ====
section
/-! SUPPORT. What the memory operations do: read after write, what a block write leaves alone, and that each keeps the canonical
form. -/

namespace Sys2Proof.Machine

/-! ### Lists of cells -/

theorem Memory.lookup_erase (a : Nat) (m : Memory) (k : Nat) :
    Memory.lookup (Memory.erase a m) k = if k = a then none else Memory.lookup m k := by
  induction m with
  | nil => simp [Memory.erase, Memory.lookup]
  | cons c rest ih =>
    obtain ⟨k', b⟩ := c
    simp only [Memory.erase] at ih ⊢
    by_cases h : k' = a
    · subst h
      by_cases hk : k = k'
      · subst hk; simpa using ih
      · simpa [Memory.lookup, hk, Ne.symm hk] using ih
    · by_cases hk : k' = k
      · subst hk; simp [Memory.lookup, h]
      · simp [Memory.lookup, h, hk, ih]

theorem Memory.lookup_insert (a : Nat) (b : Byte) (m : Memory) (fresh : Memory.lookup m a = none) (k : Nat) :
    Memory.lookup (Memory.insert a b m) k = if k = a then some b else Memory.lookup m k := by
  induction m with
  | nil => simp [Memory.insert, Memory.lookup, eq_comm]
  | cons c rest ih =>
    obtain ⟨k', b'⟩ := c
    have hne : k' ≠ a := by rintro rfl; simp [Memory.lookup] at fresh
    have fresh' : Memory.lookup rest a = none := by simpa [Memory.lookup, hne] using fresh
    simp only [Memory.insert]
    split
    · simp [Memory.lookup, eq_comm]
    · by_cases hk : k' = k
      · subst hk; simp [Memory.lookup, hne]
      · simp [Memory.lookup, hk, ih fresh']

/-- Read after store: the stored byte, or nothing where the address reads as it anyway; every other address as before. -/
theorem Memory.lookup_store (d : Byte) (a : Nat) (b : Byte) (m : Memory) (k : Nat) :
    Memory.lookup (Memory.store d a b m) k
      = if k = a then (if b = d then none else some b) else Memory.lookup m k := by
  unfold Memory.store
  split
  · simp [Memory.lookup_erase, *]
  · rw [Memory.lookup_insert _ _ _ (by simp [Memory.lookup_erase])]
    split <;> simp [Memory.lookup_erase, *]

theorem Memory.mem_insert (a : Nat) (b : Byte) (m : Memory) (c : Host.Cell) :
    c ∈ Memory.insert a b m ↔ c = (a, b) ∨ c ∈ m := by
  induction m with
  | nil => simp [Memory.insert]
  | cons e rest ih =>
    simp only [Memory.insert]
    split
    · simp
    · simp [ih, or_left_comm]

theorem Memory.insert_sorted (a : Nat) (b : Byte) (m : Memory)
    (sorted : m.Pairwise fun x y => x.1 < y.1) (fresh : ∀ c ∈ m, c.1 ≠ a) :
    (Memory.insert a b m).Pairwise fun x y => x.1 < y.1 := by
  induction m with
  | nil => simp [Memory.insert]
  | cons e rest ih =>
    have hrest := List.pairwise_cons.mp sorted
    simp only [Memory.insert]
    split
    next hlt =>
      refine List.pairwise_cons.mpr ⟨fun c hc => ?_, sorted⟩
      rcases List.mem_cons.mp hc with rfl | hc
      · exact hlt
      · exact Nat.lt_trans hlt (hrest.1 c hc)
    next hge =>
      refine List.pairwise_cons.mpr ⟨fun c hc => ?_, ih hrest.2 fun c hc => fresh c (List.mem_cons_of_mem _ hc)⟩
      rcases (Memory.mem_insert a b rest c).mp hc with rfl | hc
      · have := fresh e List.mem_cons_self
        simp only at *
        omega
      · exact hrest.1 c hc

/-- Storing inside the address space keeps the canonical form. -/
theorem Memory.store_wf (p : Params) (m : Memory) (a : Nat) (b : Byte) (ha : a < Config.memSize) (h : Memory.wf p m) :
    Memory.wf p (Memory.store (resetByte p a) a b m) := by
  have herase : Memory.wf p (Memory.erase a m) :=
    ⟨h.1.filter _, fun c hc => h.2 c (List.mem_filter.mp hc).1⟩
  unfold Memory.store
  split
  · exact herase
  next hb =>
    refine ⟨Memory.insert_sorted a b _ herase.1 fun c hc => by simpa using (List.mem_filter.mp hc).2, fun c hc => ?_⟩
    rcases (Memory.mem_insert a b _ c).mp hc with rfl | hc
    · exact ⟨ha, hb⟩
    · exact herase.2 c hc

/-! ### One byte -/

/-- A byte read after a byte written (20_memory.md R69). -/
@[simp] theorem State.putByte_byteAt (s : State) (a : Nat) (b : Byte) (k : Nat) :
    (s.putByte a b).byteAt k = if k = a then b else s.byteAt k := by
  simp only [State.byteAt, State.putByte, Memory.lookup_store]
  split
  next h => subst h; split <;> simp [*]
  · rfl

/-! ### Blocks -/

theorem inBounds_iff (a n : Nat) : inBounds a n = true ↔ n = 0 ∨ a + n ≤ 4096 := by
  simp only [inBounds, Bool.or_eq_true, beq_iff_eq, decide_eq_true_eq]
  exact Iff.rfl

/-- A block write changes memory only. -/
theorem State.putBytes_eq (s : State) (a : Nat) (bs : List Byte) :
    s.putBytes a bs = { s with mem := (s.putBytes a bs).mem } := by
  induction bs generalizing s a with
  | nil => rfl
  | cons b bs ih => simp only [State.putBytes]; rw [ih]; rfl

/-! ### A block write leaves every other field alone -/

@[simp] theorem State.putBytes_params (s : State) (a : Nat) (bs : List Byte) : (s.putBytes a bs).params = s.params := by
  rw [State.putBytes_eq]

@[simp] theorem State.putBytes_v (s : State) (a : Nat) (bs : List Byte) : (s.putBytes a bs).v = s.v := by
  rw [State.putBytes_eq]

@[simp] theorem State.putBytes_i (s : State) (a : Nat) (bs : List Byte) : (s.putBytes a bs).i = s.i := by
  rw [State.putBytes_eq]

@[simp] theorem State.putBytes_pc (s : State) (a : Nat) (bs : List Byte) : (s.putBytes a bs).pc = s.pc := by
  rw [State.putBytes_eq]

@[simp] theorem State.putBytes_sp (s : State) (a : Nat) (bs : List Byte) : (s.putBytes a bs).sp = s.sp := by
  rw [State.putBytes_eq]

@[simp] theorem State.putBytes_stack (s : State) (a : Nat) (bs : List Byte) : (s.putBytes a bs).stack = s.stack := by
  rw [State.putBytes_eq]

@[simp] theorem State.putBytes_dt (s : State) (a : Nat) (bs : List Byte) : (s.putBytes a bs).dt = s.dt := by
  rw [State.putBytes_eq]

@[simp] theorem State.putBytes_st (s : State) (a : Nat) (bs : List Byte) : (s.putBytes a bs).st = s.st := by
  rw [State.putBytes_eq]

@[simp] theorem State.putBytes_keys (s : State) (a : Nat) (bs : List Byte) : (s.putBytes a bs).keys = s.keys := by
  rw [State.putBytes_eq]

@[simp] theorem State.putBytes_fb (s : State) (a : Nat) (bs : List Byte) : (s.putBytes a bs).fb = s.fb := by
  rw [State.putBytes_eq]

@[simp] theorem State.putBytes_dispChanged (s : State) (a : Nat) (bs : List Byte) : (s.putBytes a bs).dispChanged = s.dispChanged := by
  rw [State.putBytes_eq]

@[simp] theorem State.putBytes_beep (s : State) (a : Nat) (bs : List Byte) : (s.putBytes a bs).beep = s.beep := by
  rw [State.putBytes_eq]

@[simp] theorem State.putBytes_status (s : State) (a : Nat) (bs : List Byte) : (s.putBytes a bs).status = s.status := by
  rw [State.putBytes_eq]

@[simp] theorem State.putBytes_draws (s : State) (a : Nat) (bs : List Byte) : (s.putBytes a bs).draws = s.draws := by
  rw [State.putBytes_eq]

@[simp] theorem State.putBytes_getV (s : State) (a : Nat) (bs : List Byte) (r : Nibble) :
    (s.putBytes a bs).getV r = s.getV r := by
  rw [State.putBytes_eq]; rfl

/-- A byte read after a block written: the block's byte inside it, the old byte outside. -/
theorem State.putBytes_byteAt (s : State) (a : Nat) (bs : List Byte) (k : Nat) :
    (s.putBytes a bs).byteAt k = if a ≤ k then (bs[k - a]?).getD (s.byteAt k) else s.byteAt k := by
  induction bs generalizing s a with
  | nil => simp [State.putBytes]
  | cons b bs ih =>
    simp only [State.putBytes, ih, State.putByte_byteAt]
    by_cases hk : k = a
    · subst hk; simp
    · by_cases hle : a ≤ k
      · have h1 : a + 1 ≤ k := by omega
        have h2 : k - a = (k - (a + 1)) + 1 := by omega
        simp [hle, h1, h2, hk]
      · have h1 : ¬ a + 1 ≤ k := by omega
        simp [hle, h1, hk]

/-- A block write inside the address space keeps the canonical form. -/
theorem State.putBytes_wf (s : State) (a : Nat) (bs : List Byte) (hb : a + bs.length ≤ Config.memSize)
    (h : Memory.wf s.params s.mem) : Memory.wf s.params (s.putBytes a bs).mem := by
  induction bs generalizing s a with
  | nil => exact h
  | cons b bs ih =>
    simp only [List.length_cons] at hb
    exact ih (s.putByte a b) (a + 1) (by omega) (Memory.store_wf _ _ _ _ (by omega) h)

/-- All a checked block write can do. -/
theorem State.writeBlock_eq_some (s s' : State) (a : Nat) (bs : List Byte) :
    s.writeBlock a bs = some s' ↔ inBounds a bs.length = true ∧ s' = s.putBytes a bs := by
  unfold State.writeBlock
  split <;> simp [*, eq_comm]

theorem State.writeBlock_eq_none (s : State) (a : Nat) (bs : List Byte) :
    s.writeBlock a bs = none ↔ inBounds a bs.length = false := by
  simp [State.writeBlock]

/-- A checked block write keeps the canonical form and changes memory only. -/
theorem State.writeBlock_wf (s s' : State) (a : Nat) (bs : List Byte) (h : s.writeBlock a bs = some s')
    (hwf : Memory.wf s.params s.mem) : Memory.wf s'.params s'.mem ∧ s' = { s with mem := s'.mem } := by
  obtain ⟨hb, rfl⟩ := (State.writeBlock_eq_some s s' a bs).mp h
  refine ⟨?_, State.putBytes_eq s a bs⟩
  rw [State.putBytes_eq]
  rcases (inBounds_iff _ _).mp hb with h0 | h0
  · rw [List.eq_nil_of_length_eq_zero h0]; exact hwf
  · exact State.putBytes_wf s a bs h0 hwf

/-- All a checked block read can do. -/
theorem State.readBlock_eq_some (s : State) (a n : Nat) (bs : List Byte) :
    s.readBlock a n = some bs ↔ inBounds a n = true ∧ bs = (List.range n).map fun j => s.byteAt (a + j) := by
  unfold State.readBlock
  split <;> simp [*, eq_comm]

theorem State.readBlock_eq_none (s : State) (a n : Nat) : s.readBlock a n = none ↔ inBounds a n = false := by
  simp [State.readBlock]

/-- A byte read in terms of the cell's content (00_scope.md R14). -/
theorem State.memRead_eq (s : State) (a : Nat) : s.memRead a = if a ≤ 0xFFF then some (s.byteAt a) else none := by
  have : inBounds a 1 = true ↔ a ≤ 0xFFF := by rw [inBounds_iff]; omega
  simp [State.memRead, this]

/-- The fetch in terms of the two byte reads (20_memory.md R66). -/
theorem State.fetch16_eq (s : State) :
    s.fetch16 = if s.pc.toNat ≤ 0xFFE then some (opcodeOfBytes (s.byteAt s.pc.toNat) (s.byteAt (s.pc.toNat + 1)))
      else none := by
  have : inBounds s.pc.toNat 2 = true ↔ s.pc.toNat ≤ 0xFFE := by rw [inBounds_iff]; omega
  simp [State.fetch16, this]

/-! ### Construction and load -/

/-- Memory right after construction lists nothing, which is canonical. -/
theorem State.construct_wf (p : Params) : Memory.wf (State.construct p).params (State.construct p).mem :=
  ⟨List.Pairwise.nil, by simp [State.construct]⟩

theorem State.reset_wf : Memory.wf State.reset.params State.reset.mem := State.construct_wf _

@[simp] theorem State.construct_byteAt (p : Params) (a : Nat) : (State.construct p).byteAt a = resetByte p a := rfl

/-- An accepted load keeps the canonical form. -/
theorem State.load_wf (s t : State) (image : List Byte) (h : s.load image = .next t)
    (hwf : Memory.wf s.params s.mem) : Memory.wf t.params t.mem := by
  unfold State.load at h
  split at h
  next hfit =>
    cases h
    rw [State.putBytes_eq]
    refine State.putBytes_wf s _ _ ?_ hwf
    have hlen : image.length ≤ 3584 := of_decide_eq_true hfit
    show 512 + image.length ≤ 4096
    omega
  · cases h

end Sys2Proof.Machine
end

