-- ==== Sys2Proof/Laws/Host.lean ====
section
/-! SUPPORT. What the host's interactions do to the lifecycle. -/

namespace Sys2Proof.Laws

open Sys2Proof.Machine

/-- The phase an interaction leads to. -/
def phaseAfter (σ : Session) : HostAction → Phase
  | .load _ => .loadCalled
  | .writeKeys _ => σ.phase
  | .step => .started

theorem act_phase (σ τ : Session) (a : HostAction) (h : Session.act σ a = .next τ) : τ.phase = phaseAfter σ a := by
  cases a with
  | load image =>
    simp only [Session.act] at h
    split at h
    · split at h <;> cases h <;> rfl
    · cases h
    · cases h
  | writeKeys ks =>
    simp only [Session.act] at h
    split at h <;> cases h
    rfl
  | step =>
    simp only [Session.act] at h
    split at h <;> cases h
    rfl

/-- The one phase in which `load` has a meaning. -/
theorem act_load_refused (σ : Session) (image : List Byte) (h : σ.phase ≠ .constructed) :
    Session.act σ (.load image) = .refused .loadOutsideLifecycle := by
  simp only [Session.act]
  split
  · contradiction
  · rfl
  · rfl

/-- Writing KEYS does nothing else to the machine. -/
theorem writeKeys_eq (s : State) (ks : Vector Bool 16) : s.writeKeys ks = { s with keys := ks } := rfl

end Sys2Proof.Laws
end

