-- ==== Sys2Proof/Laws/Ops.lean ====
section
/-! SUPPORT. What the shared operations over registers, stack, outputs, keys and parameters do, each said once. -/

namespace Sys2Proof.Machine

/-! ### Registers -/

/-- A register read after a register written. -/
@[simp] theorem State.setV_getV (s : State) (x : Nibble) (b : Byte) (r : Nibble) :
    (s.setV x b).getV r = if r = x then b else s.getV r := by
  simp only [State.getV, State.setV, Vector.getElem_set, ← BitVec.toNat_inj, eq_comm]

/-- A register after a block load: the block's byte where it reaches, the old value above. -/
theorem State.loadRegs_getV (s : State) (bs : List Byte) (r : Nibble) :
    (s.loadRegs bs).getV r = (bs[r.toNat]?).getD (s.getV r) := by
  simp [State.getV, State.loadRegs]

/-- `V[0]..V[x]` are x + 1 bytes. -/
@[simp] theorem State.regsUpTo_length (s : State) (x : Nibble) : (s.regsUpTo x).length = x.toNat + 1 := by
  have := x.isLt
  simp only [State.regsUpTo, List.length_take, Vector.length_toList]
  omega

/-- The j-th byte of `V[0]..V[x]` is V[j]. -/
theorem State.regsUpTo_getElem? (s : State) (x : Nibble) (j : Nat) :
    (s.regsUpTo x)[j]? = if j ≤ x.toNat then some (s.getV (BitVec.ofNat 4 j)) else none := by
  have := x.isLt
  unfold State.regsUpTo
  rw [List.getElem?_take]
  by_cases h : j ≤ x.toNat
  · have hj : j < 16 := by omega
    rw [if_pos (by omega), if_pos h]
    simp [State.getV, Nat.mod_eq_of_lt hj, hj]
  · rw [if_neg (by omega), if_neg h]

/-! ### Stack -/

/-- All a push can do. -/
theorem State.push_eq_some (s s' : State) (w : Word) (h : s.push w = some s') :
    ∃ lt : s.sp.val < 16,
      s' = { s with stack := s.stack.set s.sp.val w lt, sp := ⟨s.sp.val + 1, Nat.succ_lt_succ lt⟩ } := by
  unfold State.push at h
  split at h
  next lt => exact ⟨lt, (Option.some.inj h).symm⟩
  · cases h

theorem State.push_eq_none (s : State) (w : Word) : s.push w = none ↔ s.sp.val = 16 := by
  have := s.sp.isLt
  unfold State.push
  split
  · simp; omega
  · simp; omega

/-- All a pop can do: the stack's entries keep their values. -/
theorem State.pop_eq_some (s s' : State) (w : Word) (h : s.pop = some (w, s')) :
    ∃ lt : s.sp.val - 1 < 16, 0 < s.sp.val ∧ w = s.stack[s.sp.val - 1] ∧
      s' = { s with sp := ⟨s.sp.val - 1, Nat.lt_succ_of_lt lt⟩ } := by
  have hs := s.sp.isLt
  unfold State.pop at h
  split at h
  · cases h
  next pos =>
    cases h
    exact ⟨by omega, by omega, rfl, rfl⟩

theorem State.pop_eq_none (s : State) : s.pop = none ↔ s.sp.val = 0 := by
  unfold State.pop
  split <;> simp [*]

/-! ### The end of a poll -/

/-- A tick is one less, floored at zero (60_exceptions.md R242). -/
theorem tick_toNat (t : Byte) : (tick t).toNat = t.toNat - 1 := by
  unfold tick
  split
  next h => subst h; rfl
  next h =>
    have : t.toNat ≠ 0 := fun h0 => h (BitVec.eq_of_toNat_eq h0)
    rw [BitVec.toNat_sub]
    have := t.isLt
    simp
    omega

/-- The end of a completed instruction, in the terms of claims. -/
theorem State.finish_ended (s : State) (drew : Bool) : Safety.Ended drew s.dt s.st (s.finish drew) where
  dispChanged := rfl
  dt := tick_toNat _
  st := tick_toNat _
  beep := by
    show (tick s.st != 0#8) = decide (0 < (tick s.st).toNat)
    generalize tick s.st = t
    by_cases h : t = 0#8
    · subst h; rfl
    · have : 0 < t.toNat := Nat.pos_of_ne_zero fun h0 => h (BitVec.eq_of_toNat_eq h0)
      simp [h, this]

/-! ### Parameters -/

/-- What Fx55 and Fx65 do to I after the transfer (42_index_memory.md R175). -/
theorem State.stepIndex_eq (s : State) (x : Nibble) :
    s.stepIndex x
      = { s with i := if s.params.loadStoreIncrementsI then s.i + x.setWidth 16 + 1#16 else s.i } := by
  unfold State.stepIndex
  split <;> simp [State.setI, *]

@[simp] theorem State.stepIndex_params (s : State) (x : Nibble) : (s.stepIndex x).params = s.params := by
  rw [State.stepIndex_eq]

@[simp] theorem State.stepIndex_mem (s : State) (x : Nibble) : (s.stepIndex x).mem = s.mem := by
  rw [State.stepIndex_eq]

@[simp] theorem State.stepIndex_v (s : State) (x : Nibble) : (s.stepIndex x).v = s.v := by
  rw [State.stepIndex_eq]

@[simp] theorem State.stepIndex_pc (s : State) (x : Nibble) : (s.stepIndex x).pc = s.pc := by
  rw [State.stepIndex_eq]

@[simp] theorem State.stepIndex_sp (s : State) (x : Nibble) : (s.stepIndex x).sp = s.sp := by
  rw [State.stepIndex_eq]

@[simp] theorem State.stepIndex_stack (s : State) (x : Nibble) : (s.stepIndex x).stack = s.stack := by
  rw [State.stepIndex_eq]

@[simp] theorem State.stepIndex_dt (s : State) (x : Nibble) : (s.stepIndex x).dt = s.dt := by
  rw [State.stepIndex_eq]

@[simp] theorem State.stepIndex_st (s : State) (x : Nibble) : (s.stepIndex x).st = s.st := by
  rw [State.stepIndex_eq]

@[simp] theorem State.stepIndex_keys (s : State) (x : Nibble) : (s.stepIndex x).keys = s.keys := by
  rw [State.stepIndex_eq]

@[simp] theorem State.stepIndex_fb (s : State) (x : Nibble) : (s.stepIndex x).fb = s.fb := by
  rw [State.stepIndex_eq]

@[simp] theorem State.stepIndex_dispChanged (s : State) (x : Nibble) : (s.stepIndex x).dispChanged = s.dispChanged := by
  rw [State.stepIndex_eq]

@[simp] theorem State.stepIndex_beep (s : State) (x : Nibble) : (s.stepIndex x).beep = s.beep := by
  rw [State.stepIndex_eq]

@[simp] theorem State.stepIndex_status (s : State) (x : Nibble) : (s.stepIndex x).status = s.status := by
  rw [State.stepIndex_eq]

@[simp] theorem State.stepIndex_draws (s : State) (x : Nibble) : (s.stepIndex x).draws = s.draws := by
  rw [State.stepIndex_eq]

@[simp] theorem State.stepIndex_getV (s : State) (x r : Nibble) : (s.stepIndex x).getV r = s.getV r := by
  rw [State.stepIndex_eq]; rfl

@[simp] theorem State.stepIndex_byteAt (s : State) (x : Nibble) (a : Nat) : (s.stepIndex x).byteAt a = s.byteAt a := by
  rw [State.stepIndex_eq]; rfl

@[simp] theorem State.stepIndex_memRead (s : State) (x : Nibble) (a : Nat) : (s.stepIndex x).memRead a = s.memRead a := by
  rw [State.stepIndex_eq]; rfl

/-! ### Keys -/

/-- A key index names a key iff it is at most 0x0F (44_keys_timers.md R210). -/
theorem State.keyAt_eq_none (s : State) (b : Byte) : s.keyAt b = none ↔ 0x0F < b.toNat := by
  unfold State.keyAt
  split
  · simp; omega
  · simp; omega

theorem State.keyAt_eq_some (s : State) (b : Byte) (h : b.toNat < 16) : s.keyAt b = some s.keys[b.toNat] := by
  simp [State.keyAt, h]

theorem State.mem_pressedKeys (s : State) (k : Fin 16) : k ∈ s.pressedKeys ↔ s.keys[k] = true := by
  simp [State.pressedKeys]

/-- The chosen key is a pressed one. -/
theorem choosePressed_mem (P : List (Fin 16)) (c : Nibble) (k : Fin 16) (h : choosePressed P c = some k) : k ∈ P := by
  unfold choosePressed at h
  split at h
  · cases h
  · simp at h; simp [h]
  next a rest _ =>
    have lt : c.toNat % (a :: rest).length < (a :: rest).length := Nat.mod_lt _ (by simp)
    rw [List.getD_eq_getElem _ _ lt] at h
    cases h
    exact List.getElem_mem lt

/-- A choice fails exactly when no key is pressed. -/
theorem choosePressed_eq_none (P : List (Fin 16)) (c : Nibble) : choosePressed P c = none ↔ P = [] := by
  unfold choosePressed
  split <;> simp

theorem State.pressedKeys_eq_nil (s : State) : s.pressedKeys = [] ↔ ∀ k : Fin 16, s.keys[k] = false := by
  simp [State.pressedKeys, List.filter_eq_nil_iff]

/-! ### Sprites -/

/-- The pixel of a sprite row at column c: sprite bit 7 - j where c = (cx + j) mod 64 (43_display.md R191, R192). -/
theorem spriteRow_pixel (b cx : Byte) (c : Fin 64) :
    (spriteRow b cx).getMsbD c = (decide ((c.val + 64 - cx.toNat % 64) % 64 < 8) &&
      b.getLsbD (7 - (c.val + 64 - cx.toNat % 64) % 64)) := by
  have hc := c.isLt
  have hm : cx.toNat % 64 < 64 := Nat.mod_lt _ (by decide)
  have key : ∀ k, k < 64 → ((b.setWidth 64) <<< 56).getMsbD k = (decide (k < 8) && b.getLsbD (7 - k)) := by
    intro k hk
    rw [BitVec.getMsbD_shiftLeft, BitVec.getMsbD_setWidth]
    by_cases h8 : k < 8
    · have h1 : 64 - 8 ≤ k + 56 := by omega
      have h2 : k + 56 - (64 - 8) = k := by omega
      simp [BitVec.getMsbD, h8]
    · simp [BitVec.getMsbD, h8]
  unfold spriteRow
  rw [BitVec.getMsbD_rotateRight]
  generalize hg : cx.toNat % 64 = m at *
  by_cases hlt : c.val < m
  · have e1 : (c.val + 64 - m) % 64 = c.val + 64 - m := Nat.mod_eq_of_lt (by omega)
    have e2 : (64 + c.val - m) % 64 = c.val + 64 - m := by
      rw [Nat.add_comm 64]; exact e1
    simp only [Nat.mod_eq_of_lt hm, hlt, if_true, e1, e2]
    rw [key _ (by omega)]
    simp [hc]
  · have e1 : (c.val + 64 - m) % 64 = c.val - m := by omega
    simp only [Nat.mod_eq_of_lt hm, hlt, if_false, e1]
    rw [key _ (by omega)]
    simp [hc]

end Sys2Proof.Machine
end

