-- ==== Sys2Proof/Laws/PerInstr.lean ====
section
/-! SUPPORT. One statement about every instruction as syntax, one lemma per constructor: its encoding is an opcode of its own row of
the table (30_encoding.md R97). -/

namespace Sys2Proof.Laws.EncodesItsRow

/-- The instruction is well-formed, its row stands in the table, and the row's mask and pattern select its encoding. -/
def Statement (i : Instr) : Prop :=
  i.wellFormed = true ∧ rowOf i ∈ opcodeTable ∧ (rowOf i).selects (encode i) = true

theorem cls (x : Nibble) : Statement (.cls x) :=
  ⟨rfl, List.mem_of_getElem? (i := 0) rfl, by simp [OpcodeRow.selects, rowOf, encode, and_F0FF]; decide⟩

theorem ret (x : Nibble) : Statement (.ret x) :=
  ⟨rfl, List.mem_of_getElem? (i := 1) rfl, by simp [OpcodeRow.selects, rowOf, encode, and_F0FF]; decide⟩

theorem jp (nnn : Addr) : Statement (.jp nnn) :=
  ⟨rfl, List.mem_of_getElem? (i := 2) rfl, by simp [OpcodeRow.selects, rowOf, encode, and_F000]; decide⟩

theorem call (nnn : Addr) : Statement (.call nnn) :=
  ⟨rfl, List.mem_of_getElem? (i := 3) rfl, by simp [OpcodeRow.selects, rowOf, encode, and_F000]; decide⟩

theorem seImm (x : Nibble) (kk : Byte) : Statement (.seImm x kk) :=
  ⟨rfl, List.mem_of_getElem? (i := 4) rfl, by simp [OpcodeRow.selects, rowOf, encode, and_F000]; decide⟩

theorem sneImm (x : Nibble) (kk : Byte) : Statement (.sneImm x kk) :=
  ⟨rfl, List.mem_of_getElem? (i := 5) rfl, by simp [OpcodeRow.selects, rowOf, encode, and_F000]; decide⟩

theorem seReg (x : Nibble) (y : Nibble) (n : Nibble) : Statement (.seReg x y n) :=
  ⟨rfl, List.mem_of_getElem? (i := 6) rfl, by simp [OpcodeRow.selects, rowOf, encode, and_F000]; decide⟩

theorem ldImm (x : Nibble) (kk : Byte) : Statement (.ldImm x kk) :=
  ⟨rfl, List.mem_of_getElem? (i := 7) rfl, by simp [OpcodeRow.selects, rowOf, encode, and_F000]; decide⟩

theorem addImm (x : Nibble) (kk : Byte) : Statement (.addImm x kk) :=
  ⟨rfl, List.mem_of_getElem? (i := 8) rfl, by simp [OpcodeRow.selects, rowOf, encode, and_F000]; decide⟩

theorem ldReg (x : Nibble) (y : Nibble) : Statement (.ldReg x y) :=
  ⟨rfl, List.mem_of_getElem? (i := 9) rfl, by simp [OpcodeRow.selects, rowOf, encode, and_F00F]; decide⟩

theorem orReg (x : Nibble) (y : Nibble) : Statement (.orReg x y) :=
  ⟨rfl, List.mem_of_getElem? (i := 10) rfl, by simp [OpcodeRow.selects, rowOf, encode, and_F00F]; decide⟩

theorem andReg (x : Nibble) (y : Nibble) : Statement (.andReg x y) :=
  ⟨rfl, List.mem_of_getElem? (i := 11) rfl, by simp [OpcodeRow.selects, rowOf, encode, and_F00F]; decide⟩

theorem xorReg (x : Nibble) (y : Nibble) : Statement (.xorReg x y) :=
  ⟨rfl, List.mem_of_getElem? (i := 12) rfl, by simp [OpcodeRow.selects, rowOf, encode, and_F00F]; decide⟩

theorem addReg (x : Nibble) (y : Nibble) : Statement (.addReg x y) :=
  ⟨rfl, List.mem_of_getElem? (i := 13) rfl, by simp [OpcodeRow.selects, rowOf, encode, and_F00F]; decide⟩

theorem sub (x : Nibble) (y : Nibble) : Statement (.sub x y) :=
  ⟨rfl, List.mem_of_getElem? (i := 14) rfl, by simp [OpcodeRow.selects, rowOf, encode, and_F00F]; decide⟩

theorem shr (x : Nibble) (y : Nibble) : Statement (.shr x y) :=
  ⟨rfl, List.mem_of_getElem? (i := 15) rfl, by simp [OpcodeRow.selects, rowOf, encode, and_F00F]; decide⟩

theorem subn (x : Nibble) (y : Nibble) : Statement (.subn x y) :=
  ⟨rfl, List.mem_of_getElem? (i := 16) rfl, by simp [OpcodeRow.selects, rowOf, encode, and_F00F]; decide⟩

theorem shl (x : Nibble) (y : Nibble) : Statement (.shl x y) :=
  ⟨rfl, List.mem_of_getElem? (i := 17) rfl, by simp [OpcodeRow.selects, rowOf, encode, and_F00F]; decide⟩

theorem sneReg (x : Nibble) (y : Nibble) (n : Nibble) : Statement (.sneReg x y n) :=
  ⟨rfl, List.mem_of_getElem? (i := 18) rfl, by simp [OpcodeRow.selects, rowOf, encode, and_F000]; decide⟩

theorem ldI (nnn : Addr) : Statement (.ldI nnn) :=
  ⟨rfl, List.mem_of_getElem? (i := 19) rfl, by simp [OpcodeRow.selects, rowOf, encode, and_F000]; decide⟩

theorem jpV0 (nnn : Addr) : Statement (.jpV0 nnn) :=
  ⟨rfl, List.mem_of_getElem? (i := 20) rfl, by simp [OpcodeRow.selects, rowOf, encode, and_F000]; decide⟩

theorem rnd (x : Nibble) (kk : Byte) : Statement (.rnd x kk) :=
  ⟨rfl, List.mem_of_getElem? (i := 21) rfl, by simp [OpcodeRow.selects, rowOf, encode, and_F000]; decide⟩

theorem drw (x : Nibble) (y : Nibble) (n : Nibble) : Statement (.drw x y n) :=
  ⟨rfl, List.mem_of_getElem? (i := 22) rfl, by simp [OpcodeRow.selects, rowOf, encode, and_F000]; decide⟩

theorem skp (x : Nibble) : Statement (.skp x) :=
  ⟨rfl, List.mem_of_getElem? (i := 23) rfl, by simp [OpcodeRow.selects, rowOf, encode, and_F0FF]; decide⟩

theorem sknp (x : Nibble) : Statement (.sknp x) :=
  ⟨rfl, List.mem_of_getElem? (i := 24) rfl, by simp [OpcodeRow.selects, rowOf, encode, and_F0FF]; decide⟩

theorem ldVxDt (x : Nibble) : Statement (.ldVxDt x) :=
  ⟨rfl, List.mem_of_getElem? (i := 25) rfl, by simp [OpcodeRow.selects, rowOf, encode, and_F0FF]; decide⟩

theorem ldVxK (x : Nibble) : Statement (.ldVxK x) :=
  ⟨rfl, List.mem_of_getElem? (i := 26) rfl, by simp [OpcodeRow.selects, rowOf, encode, and_F0FF]; decide⟩

theorem ldDtVx (x : Nibble) : Statement (.ldDtVx x) :=
  ⟨rfl, List.mem_of_getElem? (i := 27) rfl, by simp [OpcodeRow.selects, rowOf, encode, and_F0FF]; decide⟩

theorem ldStVx (x : Nibble) : Statement (.ldStVx x) :=
  ⟨rfl, List.mem_of_getElem? (i := 28) rfl, by simp [OpcodeRow.selects, rowOf, encode, and_F0FF]; decide⟩

theorem addIVx (x : Nibble) : Statement (.addIVx x) :=
  ⟨rfl, List.mem_of_getElem? (i := 29) rfl, by simp [OpcodeRow.selects, rowOf, encode, and_F0FF]; decide⟩

theorem ldFVx (x : Nibble) : Statement (.ldFVx x) :=
  ⟨rfl, List.mem_of_getElem? (i := 30) rfl, by simp [OpcodeRow.selects, rowOf, encode, and_F0FF]; decide⟩

theorem ldBVx (x : Nibble) : Statement (.ldBVx x) :=
  ⟨rfl, List.mem_of_getElem? (i := 31) rfl, by simp [OpcodeRow.selects, rowOf, encode, and_F0FF]; decide⟩

theorem ldMemVx (x : Nibble) : Statement (.ldMemVx x) :=
  ⟨rfl, List.mem_of_getElem? (i := 32) rfl, by simp [OpcodeRow.selects, rowOf, encode, and_F0FF]; decide⟩

theorem ldVxMem (x : Nibble) : Statement (.ldVxMem x) :=
  ⟨rfl, List.mem_of_getElem? (i := 33) rfl, by simp [OpcodeRow.selects, rowOf, encode, and_F0FF]; decide⟩

end Sys2Proof.Laws.EncodesItsRow
end

