-- ==== Sys2Proof/Laws/Sprite.lean ====
section
/-! SUPPORT. The pixel blend and collision unit, pixel by pixel: a drawn sprite toggles exactly the pixels it covers, and
collides exactly when it covers a lit one (43_display.md R190-R193). -/

namespace Sys2Proof.Machine

/-- Which sprite row lands on framebuffer row R when sprite row `r` is the next one drawn. -/
def spriteIndex (cy : Byte) (r : Nat) (R : Fin 32) : Nat := (R.val + 32 - (cy.toNat + r) % 32) % 32

/-- The bits XOR-ed onto framebuffer row R. -/
def rowMask (cx cy : Byte) (r : Nat) (rows : List Byte) (R : Fin 32) : RowWord :=
  ((rows[spriteIndex cy r R]?).map fun b => spriteRow b cx).getD 0#64

theorem targetRow_val (cy : Byte) (r : Nat) : (targetRow cy r).val = (cy.toNat + r) % 32 := rfl

/-- Row R takes the one sprite row that lands on it. -/
theorem drawRows_row (cx cy : Byte) (rows : List Byte) (r : Nat) (f : Framebuffer) (col : Bool)
    (short : rows.length ≤ 32) (R : Fin 32) :
    (drawRows cx cy r rows (f, col)).1[R] = f[R] ^^^ rowMask cx cy r rows R := by
  induction rows generalizing r f col with
  | nil => simp [drawRows, rowMask]
  | cons b rest ih =>
    simp only [List.length_cons] at short
    rw [drawRows, ih _ _ _ (by omega)]
    have hR := R.isLt
    by_cases h : R = targetRow cy r
    · subst h
      have hv := targetRow_val cy r
      have h1 : spriteIndex cy (r + 1) (targetRow cy r) = 31 := by
        unfold spriteIndex; rw [hv]; omega
      have h2 : spriteIndex cy r (targetRow cy r) = 0 := by
        unfold spriteIndex; rw [hv]; omega
      have h3 : rest[31]? = none := List.getElem?_eq_none (by omega)
      simp [rowMask, h1, h2, h3]
    · have hne : R.val ≠ (cy.toNat + r) % 32 := fun e => h (Fin.ext (e.trans (targetRow_val cy r).symm))
      have h1 : spriteIndex cy r R = spriteIndex cy (r + 1) R + 1 := by
        unfold spriteIndex; omega
      have hne' : (targetRow cy r).val ≠ R.val := fun e => h (Fin.ext e.symm)
      have h2 : (f.set (targetRow cy r) (f[targetRow cy r] ^^^ spriteRow b cx))[R] = f[R] :=
        Vector.getElem_set_ne _ _ hne'
      rw [h2]
      simp [rowMask, h1]

/-- A collision is a sprite row that meets a lit pixel of the row it lands on. -/
theorem drawRows_collide (cx cy : Byte) (rows : List Byte) (r : Nat) (f : Framebuffer) (col : Bool)
    (short : rows.length ≤ 32) :
    (drawRows cx cy r rows (f, col)).2 = true ↔
      col = true ∨ ∃ (k : Nat) (b : Byte), rows[k]? = some b ∧ f[targetRow cy (r + k)] &&& spriteRow b cx ≠ 0#64 := by
  induction rows generalizing r f col with
  | nil => simp [drawRows]
  | cons b rest ih =>
    simp only [List.length_cons] at short
    rw [drawRows, ih _ _ _ (by omega)]
    have other : ∀ k b', rest[k]? = some b' →
        (f.set (targetRow cy r) (f[targetRow cy r] ^^^ spriteRow b cx))[targetRow cy (r + 1 + k)]
          = f[targetRow cy (r + (k + 1))] := by
      intro k b' hk
      have hlt : k < rest.length := by
        rcases Nat.lt_or_ge k rest.length with h | h
        · exact h
        · rw [List.getElem?_eq_none h] at hk; cases hk
      have e : r + 1 + k = r + (k + 1) := by omega
      simp only [e]
      refine Vector.getElem_set_ne _ _ ?_
      rw [targetRow_val, targetRow_val]
      omega
    simp only [Bool.or_eq_true, bne_iff_ne, or_assoc]
    refine or_congr_right ?_
    constructor
    · rintro (h | ⟨k, b', hk, h⟩)
      · exact ⟨0, b, rfl, h⟩
      · exact ⟨k + 1, b', by simpa using hk, by rwa [other k b' hk] at h⟩
    · rintro ⟨k, b', hk, h⟩
      cases k with
      | zero =>
        cases hk
        exact .inl h
      | succ k =>
        simp only [List.getElem?_cons_succ] at hk
        exact .inr ⟨k, b', hk, by rwa [other k b' hk]⟩

/-- The pixels of a sprite row. -/
theorem spriteRow_pixel_iff (b cx : Byte) (c : Fin 64) :
    (spriteRow b cx).getMsbD c = true ↔
      ∃ j, j < 8 ∧ b.getLsbD (7 - j) = true ∧ c.val = (cx.toNat + j) % 64 := by
  have hc := c.isLt
  rw [spriteRow_pixel, Bool.and_eq_true, decide_eq_true_eq]
  constructor
  · rintro ⟨h, hb⟩
    exact ⟨_, h, hb, by omega⟩
  · rintro ⟨j, hj, hb, e⟩
    have : (c.val + 64 - cx.toNat % 64) % 64 = j := by omega
    rw [this]
    exact ⟨hj, hb⟩

/-- The bits XOR-ed onto a framebuffer row are the covered pixels. -/
theorem rowMask_pixel_iff (cx cy : Byte) (rows : List Byte) (short : rows.length ≤ 32) (r : Fin 32) (c : Fin 64) :
    (rowMask cx cy 0 rows r).getMsbD c = true ↔ Safety.Covers cx cy rows r c := by
  have hr := r.isLt
  unfold Safety.Covers
  constructor
  · intro h
    unfold rowMask at h
    cases hk : rows[spriteIndex cy 0 r]? with
    | none => rw [hk] at h; simp [BitVec.getMsbD] at h
    | some b =>
      rw [hk] at h
      obtain ⟨j, hj, hb, e⟩ := (spriteRow_pixel_iff b cx c).mp h
      exact ⟨_, b, j, hk, hj, hb, by unfold spriteIndex; omega, e⟩
  · rintro ⟨k, b, j, hk, hj, hb, er, ec⟩
    have hlt : k < rows.length := by
      rcases Nat.lt_or_ge k rows.length with h | h
      · exact h
      · rw [List.getElem?_eq_none h] at hk; cases hk
    have : spriteIndex cy 0 r = k := by unfold spriteIndex; omega
    unfold rowMask
    rw [this, hk]
    exact (spriteRow_pixel_iff b cx c).mpr ⟨j, hj, hb, ec⟩

/-- A drawn sprite toggles exactly the pixels it covers. -/
theorem drawSprite_pixel (f : Framebuffer) (cx cy : Byte) (rows : List Byte) (short : rows.length ≤ 32)
    (r : Fin 32) (c : Fin 64) :
    Framebuffer.pixel (drawSprite f cx cy rows).1 r c = true ↔
      (Framebuffer.pixel f r c = true ↔ ¬ Safety.Covers cx cy rows r c) := by
  unfold Framebuffer.pixel drawSprite
  rw [drawRows_row _ _ _ _ _ _ short, BitVec.getMsbD_xor, ← rowMask_pixel_iff cx cy rows short r c]
  cases f[r].getMsbD c <;> cases (rowMask cx cy 0 rows r).getMsbD c <;> simp

/-- A drawn sprite collides exactly when it covers a lit pixel. -/
theorem drawSprite_collide (f : Framebuffer) (cx cy : Byte) (rows : List Byte) (short : rows.length ≤ 32) :
    (drawSprite f cx cy rows).2 = true ↔
      ∃ (r : Fin 32) (c : Fin 64), Safety.Covers cx cy rows r c ∧ Framebuffer.pixel f r c = true := by
  unfold drawSprite
  rw [drawRows_collide _ _ _ _ _ _ short]
  constructor
  · rintro (h | ⟨k, b, hk, h⟩)
    · cases h
    · obtain ⟨i, hi, hbit⟩ : ∃ i, i < 64 ∧ (f[targetRow cy (0 + k)] &&& spriteRow b cx).getMsbD i = true := by
        by_contra none
        refine h (BitVec.eq_of_getMsbD_eq fun i hi => ?_)
        cases hb : (f[targetRow cy (0 + k)] &&& spriteRow b cx).getMsbD i
        · simp [BitVec.getMsbD]
        · exact absurd ⟨i, hi, hb⟩ none
      rw [BitVec.getMsbD_and, Bool.and_eq_true] at hbit
      obtain ⟨j, hj, hb, e⟩ := (spriteRow_pixel_iff b cx ⟨i, hi⟩).mp hbit.2
      exact ⟨targetRow cy (0 + k), ⟨i, hi⟩,
        ⟨k, b, j, hk, hj, hb, by rw [targetRow_val, Nat.zero_add], e⟩, hbit.1⟩
  · rintro ⟨r, c, ⟨k, b, j, hk, hj, hb, er, ec⟩, lit⟩
    refine .inr ⟨k, b, hk, fun h0 => ?_⟩
    obtain rfl : r = targetRow cy (0 + k) := Fin.ext (by rw [targetRow_val, Nat.zero_add, er])
    have hbit := congrArg (fun w : RowWord => w.getMsbD c.val) h0
    simp only [BitVec.getMsbD_and] at hbit
    rw [(spriteRow_pixel_iff b cx c).mpr ⟨j, hj, hb, ec⟩] at hbit
    unfold Framebuffer.pixel at lit
    rw [lit] at hbit
    simp [BitVec.getMsbD] at hbit

end Sys2Proof.Machine
end

