-- ==== Sys2Proof/Laws/Step.lean ====
section
/-! SUPPORT. What a step and an instruction can do, once: the ways a step can answer, the ways an instruction can end, and the parts
of the state each instruction writes. -/

namespace Sys2Proof.Laws

open Sys2Proof.Machine Sys2Proof.Safety

/-! ### How a step and an instruction can end -/

/-- All the ways an instruction can answer a next state: it waits, it halts, or it completes, with the timers ticked from the
values it leaves (30_encoding.md R104). -/
theorem exec_cases (i : Instr) (s t : State) (h : exec i s = .next t) :
   (t = s ∧ Waiting i s) ∨ (∃ r, t = s.raiseHalt r (some (encode i))) ∨
   (∃ (s' : State) (d : Bool), t = s'.finish d ∧ s'.status = s.status ∧ s'.keys = s.keys ∧ s'.params = s.params ∧
      (d = true ↔ ((∃ x, i = .cls x) ∨ ∃ x y n, i = .drw x y n)) ∧
      s'.st = (match i with | .ldStVx x => s.getV x | _ => s.st) ∧
      s'.dt = (match i with | .ldDtVx x => s.getV x | _ => s.dt) ∧
      (Memory.wf s.params s.mem → Memory.wf s.params s'.mem) ∧ ¬ Waiting i s) := by
  cases i with
  | ret x =>
    simp only [exec, execRet] at h
    split at h
    · right; left; exact ⟨_, by injection h with h; exact h.symm⟩
    · rename_i w s' hp
      right; right
      injection h with h
      subst h
      simp only [State.pop] at hp; split at hp
      · cases hp
      · injection hp with hp; injection hp with h1 h2; subst h2
        exact ⟨_, _, rfl, rfl, rfl, rfl, by simp, rfl, rfl, id, by simp [Waiting]⟩
  | call nnn =>
    simp only [exec, execCall] at h
    split at h
    · right; left; exact ⟨_, by injection h with h; exact h.symm⟩
    · rename_i s' hp
      right; right
      injection h with h
      subst h
      simp only [State.push] at hp; split at hp
      · injection hp with hp; subst hp
        exact ⟨_, _, rfl, rfl, rfl, rfl, by simp, rfl, rfl, id, by simp [Waiting]⟩
      · cases hp
  | drw x y n =>
    simp only [exec, execDrw] at h
    split at h
    · right; left; exact ⟨_, by injection h with h; exact h.symm⟩
    · right; right
      injection h with h
      subst h
      exact ⟨_, _, rfl, rfl, rfl, rfl, by simp, rfl, rfl, id, by simp [Waiting]⟩
  | skp x =>
    simp only [exec, execSkp] at h
    split at h
    · right; left; exact ⟨_, by injection h with h; exact h.symm⟩
    · right; right
      injection h with h
      subst h
      exact ⟨_, _, rfl, rfl, rfl, rfl, by simp, rfl, rfl, id, by simp [Waiting]⟩
  | sknp x =>
    simp only [exec, execSknp] at h
    split at h
    · right; left; exact ⟨_, by injection h with h; exact h.symm⟩
    · right; right
      injection h with h
      subst h
      exact ⟨_, _, rfl, rfl, rfl, rfl, by simp, rfl, rfl, id, by simp [Waiting]⟩
  | ldVxK x =>
    simp only [exec, execLdVxK] at h
    split at h
    · rename_i hc
      left; injection h with h; refine ⟨h.symm, ⟨_, rfl⟩, ?_⟩
      exact (State.pressedKeys_eq_nil s).mp ((choosePressed_eq_none _ _).mp hc)
    · rename_i k hc
      right; right
      injection h with h
      subst h
      refine ⟨_, _, rfl, rfl, rfl, rfl, by simp, rfl, rfl, id, ?_⟩
      rintro ⟨-, hk⟩
      have := (choosePressed_eq_none s.pressedKeys (Config.waitKeyChoice s.draws)).mpr ((State.pressedKeys_eq_nil s).mpr hk)
      rw [this] at hc; cases hc
  | ldBVx x =>
    simp only [exec, execLdBVx] at h
    split at h
    · right; left; exact ⟨_, by injection h with h; exact h.symm⟩
    · rename_i s' hw
      right; right
      injection h with h
      subst h
      have h0 := hw
      rw [State.writeBlock_eq_some] at h0
      obtain ⟨hb, rfl⟩ := h0
      exact ⟨_, _, rfl, by simp, by simp, by simp, by simp, by simp, by simp, fun hm => by
        have := (State.writeBlock_wf _ _ _ _ hw hm).1; simpa using this, by simp [Waiting]⟩
  | ldMemVx x =>
    simp only [exec, execLdMemVx] at h
    split at h
    · right; left; exact ⟨_, by injection h with h; exact h.symm⟩
    · rename_i s' hw
      right; right
      injection h with h
      subst h
      have h0 := hw
      rw [State.writeBlock_eq_some] at h0
      obtain ⟨hb, rfl⟩ := h0
      exact ⟨_, _, rfl, by simp, by simp, by simp, by simp, by simp, by simp, fun hm => by
        have := (State.writeBlock_wf _ _ _ _ hw hm).1; simpa using this, by simp [Waiting]⟩
  | ldVxMem x =>
    simp only [exec, execLdVxMem] at h
    split at h
    · right; left; exact ⟨_, by injection h with h; exact h.symm⟩
    · rename_i s' hw
      right; right
      injection h with h
      subst h
      exact ⟨_, _, rfl, by simp, by simp, by simp, by simp, by simp, by simp, fun hm => by simpa using hm, by simp [Waiting]⟩
  | _ => 
    right; right
    injection h with h
    subst h
    exact ⟨_, _, rfl, rfl, rfl, rfl, by simp, rfl, rfl, id, by simp [Waiting]⟩

/-- All the ways a step can answer a next state: a halt at fetch or decode, or `exec` of the fetched instruction. -/
theorem step_cases (s t : State) (h : step s = .next t) : s.status = .running ∧
  ((∃ r o, t = s.raiseHalt r o ∧ o = s.fetch16) ∨ (∃ w i, s.fetch16 = some w ∧ decodeOpcode w = some i ∧ exec i s = .next t)) := by
  simp only [step] at h
  split at h
  · cases h
  · rename_i hr
    refine ⟨hr, ?_⟩
    split at h
    · rename_i hf; left; refine ⟨.addressOutOfRange, none, ?_, hf.symm⟩; injection h with h; exact h.symm
    · rename_i w hf
      split at h
      · left; refine ⟨.unimplementedInstruction, some w, ?_, hf.symm⟩; injection h with h; exact h.symm
      · rename_i i hd; right; exact ⟨w, i, hf, hd, h⟩

/-! ### Which parts an instruction writes -/

/-- The parts an instruction that does not halt may write. -/
def writes (s : State) : Instr → Part → Prop
  | .cls _ => fun p => p = .framebuffer
  | .ret _ => fun p => p = .sp
  | .call _ => fun p => p = .sp ∨ ∃ j, p = .stackEntry j
  | .ldImm x _ | .addImm x _ | .ldReg x _ | .orReg x _ | .andReg x _ | .xorReg x _ | .ldVxDt x => fun p => p = .reg x
  | .addReg x _ | .sub x _ | .shr x _ | .subn x _ | .shl x _ => fun p => p = .reg x ∨ p = .reg vf
  | .ldI _ | .ldFVx _ => fun p => p = .index
  | .rnd x _ | .ldVxK x => fun p => p = .reg x ∨ p = .draws
  | .drw _ _ _ => fun p => p = .framebuffer ∨ p = .reg vf
  | .addIVx _ => fun p => p = .index ∨ p = .reg vf
  | .ldBVx _ => bytesFrom s.i.toNat 3
  | .ldMemVx x => fun p => bytesFrom s.i.toNat (x.toNat + 1) p ∨ (s.params.loadStoreIncrementsI = true ∧ p = .index)
  | .ldVxMem x => fun p => (∃ r, r.toNat ≤ x.toNat ∧ p = .reg r) ∨ (s.params.loadStoreIncrementsI = true ∧ p = .index)
  | .jp _ | .seImm _ _ | .sneImm _ _ | .seReg _ _ _ | .sneReg _ _ _ | .jpV0 _ | .skp _ | .sknp _ | .ldDtVx _ | .ldStVx _ => nothing

/-- Writing bytes touches no other part. -/
theorem putBytes_keeps (s : State) (bs : List Byte) (a n : Nat) (hn : bs.length = n) (p) (hp : ¬ bytesFrom a n p) : p.same s (s.putBytes a bs) := by
    cases p with
    | byte k =>
      simp only [Part.same]
      rw [State.memRead_eq, State.memRead_eq, State.putBytes_byteAt]
      by_cases hle : a ≤ k
      · have : ¬ k < a + n := fun hlt => hp ⟨k, rfl, hle, hlt⟩
        have h3 : bs[k - a]? = none := List.getElem?_eq_none (by omega)
        simp [h3]
      · simp [hle]
    | _ => simp [Part.same]

/-- A halt of a machine that has halted the same way before changes nothing. -/
theorem raiseHalt_keeps (s : State) (r : HaltReason) (o : Option Word) (p : Part) (h : (s.raiseHalt r o).status = s.status) :
    p.same s (s.raiseHalt r o) := by
  cases p with
  | status => exact h
  | _ => simp [Part.same]

/-- The optional step of I and the end of an instruction touch at most I, of the parts. -/
theorem stepIndex_keeps (s s' : State) (x) (p : Part) (h : p.same s s') (hp : ¬ (s'.params.loadStoreIncrementsI = true ∧ p = .index)) : p.same s ((s'.stepIndex x).advance.finish false) := by
  cases p <;> first | (simpa [Part.same] using h) | (simp_all [State.stepIndex_eq, Part.same])

/-- An instruction that leaves STATUS alone leaves every part alone that it does not write. -/
theorem exec_keeps (i : Instr) (s t : State) (h : exec i s = .next t) (hrun : t.status = s.status) : Keeps (writes s i) s t := by
  cases i with
  | call nnn =>
    simp only [exec, execCall] at h
    split at h
    · obtain rfl := Host.Outcome.next.inj h; exact fun p _ => raiseHalt_keeps s _ _ p hrun
    · rename_i hw; obtain ⟨_, rfl⟩ := State.push_eq_some _ _ _ hw
      obtain rfl := Host.Outcome.next.inj h; intro p hp; cases p <;> first | rfl | simp_all [writes]
  | ret x =>
    simp only [exec, execRet] at h
    split at h
    · obtain rfl := Host.Outcome.next.inj h; exact fun p _ => raiseHalt_keeps s _ _ p hrun
    · rename_i hw; obtain ⟨_, _, _, rfl⟩ := State.pop_eq_some _ _ _ hw
      obtain rfl := Host.Outcome.next.inj h; intro p hp; cases p <;> first | rfl | simp_all [writes]
  | ldBVx x =>
    simp only [exec, execLdBVx] at h
    split at h
    · obtain rfl := Host.Outcome.next.inj h; exact fun p _ => raiseHalt_keeps s _ _ p hrun
    · rename_i hw; rw [State.writeBlock_eq_some] at hw; obtain ⟨_, rfl⟩ := hw
      obtain rfl := Host.Outcome.next.inj h; intro p hp
      have := putBytes_keeps s (bcdDigits (s.getV x)) _ 3 rfl p hp
      cases p <;> exact this
  | ldMemVx x =>
    simp only [exec, execLdMemVx] at h
    split at h
    · obtain rfl := Host.Outcome.next.inj h; exact fun p _ => raiseHalt_keeps s _ _ p hrun
    · rename_i hw; rw [State.writeBlock_eq_some] at hw; obtain ⟨_, rfl⟩ := hw
      obtain rfl := Host.Outcome.next.inj h; intro p hp
      simp only [writes, not_or] at hp
      refine stepIndex_keeps _ _ _ _ (putBytes_keeps s _ _ (x.toNat+1) (by simp) p hp.1) ?_
      simpa using hp.2
  | ldVxMem x =>
    simp only [exec, execLdVxMem] at h
    split at h
    · obtain rfl := Host.Outcome.next.inj h; exact fun p _ => raiseHalt_keeps s _ _ p hrun
    · rename_i hw; rw [State.readBlock_eq_some] at hw; obtain ⟨_, rfl⟩ := hw
      obtain rfl := Host.Outcome.next.inj h; intro p hp
      simp only [writes, not_or] at hp
      refine stepIndex_keeps _ _ _ _ ?_ hp.2
      cases p with
      | reg r => 
        have : ¬ r.toNat ≤ x.toNat := fun hle => hp.1 ⟨r, hle, rfl⟩
        simp only [Part.same, State.loadRegs_getV]
        rw [List.getElem?_eq_none (by simp; omega)]; rfl
      | byte a => exact State.loadRegs_memRead _ _ _
      | _ => simp [Part.same]
  | drw x y n =>
    simp only [exec, execDrw] at h
    split at h
    · obtain rfl := Host.Outcome.next.inj h; exact fun p _ => raiseHalt_keeps s _ _ p hrun
    · obtain rfl := Host.Outcome.next.inj h; intro p hp; cases p <;> simp [Part.same, writes] at hp ⊢
      intro h1; exact absurd h1 hp
  | skp x =>
    simp only [exec, execSkp] at h
    split at h
    · obtain rfl := Host.Outcome.next.inj h; exact fun p _ => raiseHalt_keeps s _ _ p hrun
    · obtain rfl := Host.Outcome.next.inj h; intro p _; cases p <;> simp [Part.same]
  | sknp x =>
    simp only [exec, execSknp] at h
    split at h
    · obtain rfl := Host.Outcome.next.inj h; exact fun p _ => raiseHalt_keeps s _ _ p hrun
    · obtain rfl := Host.Outcome.next.inj h; intro p _; cases p <;> simp [Part.same]
  | ldVxK x =>
    simp only [exec, execLdVxK] at h
    split at h
    · obtain rfl := Host.Outcome.next.inj h; exact fun p _ => by cases p <;> simp [Part.same]
    · obtain rfl := Host.Outcome.next.inj h; intro p hp; cases p <;> simp [Part.same, writes] at hp ⊢
      · intro h1; exact absurd h1 hp
  | _ => obtain rfl := Host.Outcome.next.inj h; intro p hp; cases p <;> simp_all [Part.same, writes]

/-- An instruction that changes STATUS does nothing else. -/
theorem exec_halts (i : Instr) (s t : State) (h : exec i s = .next t) : t.status ≠ s.status → ∃ r, t = s.raiseHalt r (some (encode i)) := by
  intro hs
  cases i <;> simp only [exec, execRet, execCall, execDrw, execSkp, execSknp, execLdVxK, execLdBVx, execLdMemVx, execLdVxMem] at h <;> (try split at h) <;> first
    | (exact ⟨_, by injection h with h; exact h.symm⟩)
    | (exfalso; obtain rfl := Host.Outcome.next.inj h; exact hs rfl)
    | skip
  · rename_i hp; exfalso; obtain rfl := Host.Outcome.next.inj h; obtain ⟨_, _, _, rfl⟩ := State.pop_eq_some _ _ _ hp; exact hs rfl
  · rename_i hp; exfalso; obtain rfl := Host.Outcome.next.inj h; obtain ⟨_, rfl⟩ := State.push_eq_some _ _ _ hp; exact hs rfl
  · rename_i hp; exfalso; obtain rfl := Host.Outcome.next.inj h; rw [State.writeBlock_eq_some] at hp; obtain ⟨_, rfl⟩ := hp; exact hs (by simp)
  · rename_i hp; exfalso; obtain rfl := Host.Outcome.next.inj h; rw [State.writeBlock_eq_some] at hp; obtain ⟨_, rfl⟩ := hp; exact hs (by simp)
  · exfalso; obtain rfl := Host.Outcome.next.inj h; exact hs (by simp)

/-- A part of the state other than STATUS that an instruction changes is one it writes. -/
theorem exec_writes (i : Instr) (s t : State) (h : exec i s = .next t) (p : Part) (hne : ¬ p.same s t) (hps : p ≠ .status) : writes s i p := by
  by_cases hs : t.status = s.status
  · by_contra hw; exact hne (exec_keeps i s t h hs p hw)
  · obtain ⟨r, rfl⟩ := exec_halts i s t h hs
    exfalso; cases p <;> first | exact hne rfl | exact hps rfl

end Sys2Proof.Laws
end

