-- ==== Sys2Proof/Tests/Slice0.lean ====
section
/-! SUPPORT. Tests of the model: ill-formed parameters and images refused, words written out from the spec's encodings, single steps
from the spec's test vectors (95_test_vectors.md, "V<n>"), and for every statement with hypotheses a witness that meets them. -/

namespace Sys2Proof.Tests

open Sys2Proof.Machine Sys2Proof.Safety

/-! ### Well-formedness: what the checks refuse -/

def paramsAt (fontBase : Addr) : Params := { referenceParams with fontBase := fontBase }

/-- 00_scope.md R10: FONT_BASE 0x1B0 is the last legal one. -/
theorem test_params_wellFormed :
    (paramsAt 0x000).wellFormed = true ∧ (paramsAt 0x1B0).wellFormed = true ∧
    (paramsAt 0x1B1).wellFormed = false ∧ (paramsAt 0xFFF).wellFormed = false := by decide

/-- 70_reset_and_hazards.md R275: 3584 bytes are accepted, 3585 are not. -/
theorem test_image_fits :
    imageFits [] = true ∧ imageFits (List.replicate 3584 0xAB#8) = true ∧
    imageFits (List.replicate 3585 0xAB#8) = false := by
  simp only [imageFits, Config.maxRom, List.length_replicate, List.length_nil]; decide

/-- 30_encoding.md R101: fewer than two bytes, and an opcode of no row, are rejected by name. -/
theorem test_decode_rejects :
    decode [] = .error .truncated ∧ decode [0x12#8] = .error .truncated ∧
    decode [0x80#8, 0x08#8] = .error (.unimplementedInstruction 0x8008#16) := by
  refine ⟨rfl, rfl, rfl⟩

/-! ### Decoding, by words written out from the rows of 30_encoding.md R97 -/

theorem test_decode_flow :
    decodeTableWord 16 0x0BEE = some (.ret 0xB) ∧ decodeTableWord 16 0x1234 = some (.jp 0x234) ∧
    decodeTableWord 16 0x2ABC = some (.call 0xABC) ∧ decodeTableWord 16 0x3A42 = some (.seImm 0xA 0x42) ∧
    decodeTableWord 16 0x4A42 = some (.sneImm 0xA 0x42) ∧ decodeTableWord 16 0x5AB0 = some (.seReg 0xA 0xB 0x0) ∧
    decodeTableWord 16 0x9AB7 = some (.sneReg 0xA 0xB 0x7) ∧ decodeTableWord 16 0xB123 = some (.jpV0 0x123) := by decide

theorem test_decode_alu :
    decodeTableWord 16 0x63C5 = some (.ldImm 0x3 0xC5) ∧ decodeTableWord 16 0x73C5 = some (.addImm 0x3 0xC5) ∧
    decodeTableWord 16 0x83A0 = some (.ldReg 0x3 0xA) ∧ decodeTableWord 16 0x83A1 = some (.orReg 0x3 0xA) ∧
    decodeTableWord 16 0x83A2 = some (.andReg 0x3 0xA) ∧ decodeTableWord 16 0x83A3 = some (.xorReg 0x3 0xA) ∧
    decodeTableWord 16 0x83A4 = some (.addReg 0x3 0xA) ∧ decodeTableWord 16 0x83A5 = some (.sub 0x3 0xA) ∧
    decodeTableWord 16 0x83A6 = some (.shr 0x3 0xA) ∧ decodeTableWord 16 0x83A7 = some (.subn 0x3 0xA) ∧
    decodeTableWord 16 0x83AE = some (.shl 0x3 0xA) ∧ decodeTableWord 16 0xC3F0 = some (.rnd 0x3 0xF0) := by decide

theorem test_decode_index :
    decodeTableWord 16 0xA2F0 = some (.ldI 0x2F0) ∧ decodeTableWord 16 0xF21E = some (.addIVx 0x2) ∧
    decodeTableWord 16 0xF429 = some (.ldFVx 0x4) ∧ decodeTableWord 16 0xF733 = some (.ldBVx 0x7) ∧
    decodeTableWord 16 0xFE55 = some (.ldMemVx 0xE) ∧ decodeTableWord 16 0xFE65 = some (.ldVxMem 0xE) := by decide

theorem test_decode_display :
    decodeTableWord 16 0x00E0 = some (.cls 0x0) ∧ decodeTableWord 16 0xD9A5 = some (.drw 0x9 0xA 0x5) := by decide

theorem test_decode_keys_timers :
    decodeTableWord 16 0xE19E = some (.skp 0x1) ∧ decodeTableWord 16 0xE1A1 = some (.sknp 0x1) ∧
    decodeTableWord 16 0xF307 = some (.ldVxDt 0x3) ∧ decodeTableWord 16 0xF30A = some (.ldVxK 0x3) ∧
    decodeTableWord 16 0xF415 = some (.ldDtVx 0x4) ∧ decodeTableWord 16 0xF418 = some (.ldStVx 0x4) := by decide

/-- 30_encoding.md R98: opcodes next to implemented ones that match no row. -/
theorem test_decode_unimplemented :
    decodeTableWord 16 0x0000 = none ∧ decodeTableWord 16 0x00E1 = none ∧ decodeTableWord 16 0x8008 = none ∧
    decodeTableWord 16 0x800F = none ∧ decodeTableWord 16 0xE19F = none ∧ decodeTableWord 16 0xF0FF = none := by decide

theorem test_encode :
    encode (.ret 0xB) = 0x0BEE#16 ∧ encode (.call 0xABC) = 0x2ABC#16 ∧ encode (.seImm 0xA 0x42) = 0x3A42#16 ∧
    encode (.subn 0x3 0xA) = 0x83A7#16 ∧ encode (.drw 0x9 0xA 0x5) = 0xD9A5#16 ∧ encode (.sknp 0x1) = 0xE1A1#16 ∧
    encode (.ldVxMem 0xE) = 0xFE65#16 := by decide

/-! ### Single steps -/

/-- A Machine right after reset with some registers loaded. -/
def withRegs (l : List (Nibble × Byte)) : State := l.foldl (fun s p => s.setV p.1 p.2) State.reset

/-- The opcode `w` placed at PC and stepped: does the next state satisfy `p`? -/
def after (s : State) (w : Nat) (p : State → Bool) : Bool :=
  match step (s.withFetchWord 16 w) with
  | .next t => p t
  | .fault _ => false
  | .refused _ => false

/-- The error record of a halted state. -/
def record (t : State) : Option ErrorRecord :=
  match t.status with
  | .running => none
  | .halted rec => some rec

/-- A framebuffer with the pixels of row `r` lit as the bits of `w`. -/
def fbRow (r : Fin 32) (w : RowWord) : Framebuffer := blankFb.set r w

def pressing (ks : List (Fin 16)) : State :=
  State.reset.writeKeys (Vector.ofFn fun k : Fin 16 => ks.contains k)

/-- V1. -/
theorem test_jp : after State.reset 0x1234 (fun t => t.pc == 0x0234#16) = true := by decide

/-- V4. -/
theorem test_call :
    after { State.reset with pc := 0x0300#16, sp := 15 } 0x2ABC
      (fun t => t.stack[15] == 0x0302#16 && t.sp == 16 && t.pc == 0x0ABC#16) = true := by decide

/-- V5. -/
theorem test_call_overflow :
    after { State.reset with sp := 16 } 0x2ABC
      (fun t => record t == some ⟨.stackOverflow, some 0x2ABC#16, 0x0200#16⟩ && t.sp == 16) = true := by decide

/-- V6. -/
theorem test_ret :
    after { State.reset with pc := 0x0300#16, sp := 1, stack := State.reset.stack.set 0 0x0206#16 } 0x00EE
      (fun t => t.pc == 0x0206#16 && t.sp == 0 && t.stack[0] == 0x0206#16) = true := by decide

/-- V7. -/
theorem test_ret_underflow :
    after State.reset 0x00EE (fun t => record t == some ⟨.stackUnderflow, some 0x00EE#16, 0x0200#16⟩) = true := by decide

/-- V8, V9. -/
theorem test_se_imm :
    after (withRegs [(3, 0x42)]) 0x3342 (fun t => t.pc == 0x0204#16) = true ∧
    after (withRegs [(3, 0x41)]) 0x3342 (fun t => t.pc == 0x0202#16) = true := by decide

/-- V10, V11. -/
theorem test_sne_imm :
    after (withRegs [(3, 0x42)]) 0x4342 (fun t => t.pc == 0x0202#16) = true ∧
    after (withRegs [(3, 0x41)]) 0x4342 (fun t => t.pc == 0x0204#16) = true := by decide

/-- V13, V14. -/
theorem test_se_reg :
    after (withRegs [(1, 7), (2, 7)]) 0x5121 (fun t => t.pc == 0x0204#16) = true ∧
    after (withRegs [(1, 7), (2, 8)]) 0x5120 (fun t => t.pc == 0x0202#16) = true := by decide

/-- V15, V16. -/
theorem test_sne_reg :
    after (withRegs [(1, 7), (2, 8)]) 0x9120 (fun t => t.pc == 0x0204#16) = true ∧
    after (withRegs [(1, 7), (2, 7)]) 0x912F (fun t => t.pc == 0x0202#16) = true := by decide

/-- V18: not masked to 12 bits. -/
theorem test_jp_v0 : after (withRegs [(0, 0xFF)]) 0xBFFF (fun t => t.pc == 0x10FE#16) = true := by decide

/-- V20: a skip past the end of memory. -/
theorem test_skip_at_the_end :
    after { State.reset with pc := 0x0FFE#16 } 0x3000 (fun t => t.pc == 0x1002#16) = true := by decide

/-- V22. -/
theorem test_ld_imm : after State.reset 0x6F05 (fun t => t.getV vf == 0x05#8) = true := by decide

/-- V23. -/
theorem test_add_imm :
    after (withRegs [(2, 0xFA), (0xF, 0x77)]) 0x720A (fun t => t.getV 2 == 0x04#8 && t.getV vf == 0x77#8) = true := by decide

/-- V25. -/
theorem test_ld_reg : after (withRegs [(1, 0x33)]) 0x8010 (fun t => t.getV 0 == 0x33#8) = true := by decide

/-- V26. -/
theorem test_or :
    after (withRegs [(0, 0xF0), (1, 0x0F), (0xF, 0x55)]) 0x8011
      (fun t => t.getV 0 == 0xFF#8 && t.getV vf == 0x55#8) = true := by decide

/-- V27. -/
theorem test_and :
    after (withRegs [(0, 0xF0), (1, 0x3C), (0xF, 0x55)]) 0x8012
      (fun t => t.getV 0 == 0x30#8 && t.getV vf == 0x55#8) = true := by decide

/-- V28. -/
theorem test_xor :
    after (withRegs [(0, 0xF0), (1, 0x3C), (0xF, 0x55)]) 0x8013
      (fun t => t.getV 0 == 0xCC#8 && t.getV vf == 0x55#8) = true := by decide

/-- V31. -/
theorem test_add_reg :
    after (withRegs [(0, 0xFF), (1, 0xFF)]) 0x8014 (fun t => t.getV 0 == 0xFE#8 && t.getV vf == 1#8) = true := by decide

/-- V33: the sum overwrites the carry. -/
theorem test_add_reg_to_vf :
    after (withRegs [(0xF, 0xF0), (1, 0x20)]) 0x8F14 (fun t => t.getV vf == 0x10#8) = true := by decide

/-- V36, V35: the comparison is strict, and the difference wraps. -/
theorem test_sub :
    after (withRegs [(0, 7), (1, 7)]) 0x8015 (fun t => t.getV 0 == 0#8 && t.getV vf == 0#8) = true ∧
    after (withRegs [(0, 0), (1, 1)]) 0x8015 (fun t => t.getV 0 == 0xFF#8 && t.getV vf == 0#8) = true := by decide

/-- V37, V38: the operand read after the flag write. -/
theorem test_sub_with_vf :
    after (withRegs [(0xF, 9), (1, 3)]) 0x8F15 (fun t => t.getV vf == 0xFE#8) = true ∧
    after (withRegs [(0xF, 0), (1, 5)]) 0x81F5 (fun t => t.getV 1 == 4#8 && t.getV vf == 1#8) = true := by decide

/-- V42, V43: V[y] is not read, and with x = F the flag is shifted. -/
theorem test_shr :
    after (withRegs [(5, 0xFF), (6, 0)]) 0x8566 (fun t => t.getV 5 == 0x7F#8 && t.getV vf == 1#8) = true ∧
    after (withRegs [(0xF, 3)]) 0x8F06 (fun t => t.getV vf == 0#8) = true := by decide

/-- V44, V45. -/
theorem test_subn :
    after (withRegs [(0, 5), (1, 0x0A)]) 0x8017 (fun t => t.getV 0 == 5#8 && t.getV vf == 1#8) = true ∧
    after (withRegs [(0, 1), (1, 0)]) 0x8017 (fun t => t.getV 0 == 0xFF#8 && t.getV vf == 0#8) = true := by decide

/-- V47, V48. -/
theorem test_subn_with_vf :
    after (withRegs [(0xF, 2), (1, 9)]) 0x8F17 (fun t => t.getV vf == 8#8) = true ∧
    after (withRegs [(0xF, 9), (1, 2)]) 0x81F7 (fun t => t.getV 1 == 0xFF#8 && t.getV vf == 1#8) = true := by decide

/-- V49, V52. -/
theorem test_shl :
    after (withRegs [(5, 0x81)]) 0x850E (fun t => t.getV 5 == 2#8 && t.getV vf == 1#8) = true ∧
    after (withRegs [(0xF, 0x80)]) 0x8F0E (fun t => t.getV vf == 2#8) = true := by decide

/-- V56: any draw AND 0x00. -/
theorem test_rnd : ∃ t, exec (.rnd 0x3 0x00) State.reset = .next t ∧ t.getV 0x3 = 0x00#8 :=
  ⟨_, rfl, BitVec.and_zero⟩

/-- V57. -/
theorem test_ld_i : after State.reset 0xA2F0 (fun t => t.i == 0x02F0#16) = true := by decide

/-- V60, V62: the threshold is a parameter. -/
theorem test_add_i :
    after { withRegs [(2, 1)] with i := 0x0FFE#16 } 0xF21E (fun t => t.i == 0x0FFF#16 && t.getV vf == 0#8) = true ∧
    after { withRegs [(2, 0x20)] with i := 0x00F0#16, params := { referenceParams with fx1eThreshold := 0x00FF#16 } } 0xF21E
      (fun t => t.i == 0x0110#16 && t.getV vf == 1#8) = true := by decide

/-- V64. -/
theorem test_add_i_vf :
    after { withRegs [(0xF, 0x10)] with i := 0x0FF5#16 } 0xFF1E
      (fun t => t.i == 0x1005#16 && t.getV vf == 1#8) = true := by decide

/-- V66, V67: the low nibble, and another FONT_BASE. -/
theorem test_ld_f :
    after (withRegs [(1, 0x1A)]) 0xF129 (fun t => t.i == 0x0032#16) = true ∧
    after { withRegs [(1, 0x0F)] with params := paramsAt 0x050 } 0xF129 (fun t => t.i == 0x009B#16) = true := by decide

/-- V74: the last three bytes of memory. -/
theorem test_ld_b :
    after { withRegs [(0, 0x7B)] with i := 0x0FFD#16 } 0xF033
      (fun t => t.readBlock 0xFFD 3 == some [0x01#8, 0x02#8, 0x03#8]) = true := by decide

/-- V75. -/
theorem test_ld_b_out_of_range :
    after { withRegs [(0, 0x7B)] with i := 0x0FFE#16 } 0xF033
      (fun t => record t == some ⟨.addressOutOfRange, some 0xF033#16, 0x0200#16⟩ && t.memRead 0xFFE == some 0#8) = true := by
  decide

/-- V76, V77: I moves only by the parameter. -/
theorem test_ld_mem_vx :
    after { withRegs [(0, 0x11), (1, 0x22), (2, 0x33)] with i := 0x0400#16 } 0xF255
      (fun t => t.readBlock 0x400 4 == some [0x11#8, 0x22#8, 0x33#8, 0x00#8] && t.i == 0x0400#16) = true ∧
    after { withRegs [(0, 0x11), (1, 0x22), (2, 0x33)] with
        i := 0x0400#16, params := { referenceParams with loadStoreIncrementsI := true } } 0xF255
      (fun t => t.i == 0x0403#16) = true := by decide

/-- V79. -/
theorem test_ld_mem_vx_out_of_range :
    after { State.reset with i := 0x0FF1#16 } 0xFF55
      (fun t => record t == some ⟨.addressOutOfRange, some 0xFF55#16, 0x0200#16⟩) = true := by decide

/-- V80, V81. -/
theorem test_ld_vx_mem :
    after ({ State.reset with i := 0x0400#16 }.putBytes 0x400 [0x11, 0x22, 0x33]) 0xF265
      (fun t => t.getV 0 == 0x11#8 && t.getV 1 == 0x22#8 && t.getV 2 == 0x33#8 && t.i == 0x0400#16) = true ∧
    after ({ withRegs [(1, 0x44)] with i := 0x0400#16 }.putBytes 0x400 [0x99, 0x88]) 0xF065
      (fun t => t.getV 0 == 0x99#8 && t.getV 1 == 0x44#8) = true := by decide

/-- V84. -/
theorem test_cls :
    after { State.reset with fb := fbRow 3 0x1000000000000000#64 } 0x01E0
      (fun t => t.fbWord 3 == 0#64 && t.dispChanged) = true := by decide

/-- V85: rows 30, 31, 0, 1, 2 of a sprite that wraps both ways. -/
theorem test_drw_wraps :
    after ({ withRegs [(0, 62), (1, 30)] with i := 0x0300#16 }.putBytes 0x300 [0x81, 0x42, 0x24, 0x18, 0xFF]) 0xD015
      (fun t => t.fbWord 30 == 0x0400000000000002#64 && t.fbWord 31 == 0x0800000000000001#64 &&
        t.fbWord 0 == 0x9000000000000000#64 && t.fbWord 1 == 0x6000000000000000#64 &&
        t.fbWord 2 == 0xFC00000000000003#64 && t.getV vf == 0#8 && t.dispChanged) = true := by decide

/-- V90, V88, V89: a lit pixel turned off, with the coordinates read before VF is written; the same byte on a pixel that is off,
which is what a second draw meets after a first one turned its pixel off (log 25); a row above 0xFFF. -/
theorem test_drw_flag_and_bound :
    after ({ withRegs [(0xF, 5)] with i := 0x0300#16, fb := fbRow 5 0x0400000000000000#64 }.putBytes 0x300 [0x80]) 0xDFF1
      (fun t => t.fbWord 5 == 0#64 && t.getV vf == 1#8) = true ∧
    after ({ State.reset with i := 0x0FFF#16 }.putBytes 0xFFF [0x80]) 0xD011
      (fun t => t.fbWord 0 == 0x8000000000000000#64 && t.getV vf == 0#8) = true ∧
    after { State.reset with i := 0x0FFF#16 } 0xD012
      (fun t => record t == some ⟨.addressOutOfRange, some 0xD012#16, 0x0200#16⟩ && !t.dispChanged) = true := by decide

/-- V92, V96. -/
theorem test_skp :
    after ((pressing [5]).setV 1 5) 0xE19E (fun t => t.pc == 0x0204#16) = true ∧
    after (withRegs [(0, 0x10)]) 0xE09E
      (fun t => record t == some ⟨.keyIndexOutOfRange, some 0xE09E#16, 0x0200#16⟩) = true := by decide

/-- V94, V95. -/
theorem test_sknp :
    after (withRegs [(1, 5)]) 0xE1A1 (fun t => t.pc == 0x0204#16) = true ∧
    after ((pressing [3]).setV 1 3) 0xE1A1 (fun t => t.pc == 0x0202#16) = true := by decide

/-- V97, V98. -/
theorem test_ld_vx_dt :
    after { State.reset with dt := 0x10#8 } 0xF307 (fun t => t.getV 3 == 0x10#8 && t.dt == 0x0F#8) = true ∧
    after State.reset 0xF307 (fun t => t.getV 3 == 0#8 && t.dt == 0#8) = true := by decide

/-- V104: a hold changes nothing. -/
theorem test_ld_vx_k_holds :
    after { State.reset with dt := 5#8, st := 3#8 } 0xF30A
      (fun t => t == { State.reset with dt := 5#8, st := 3#8 }.withFetchWord 16 0xF30A) = true := by decide

/-- V105 with one key pressed. -/
theorem test_ld_vx_k :
    after { pressing [9] with dt := 5#8 } 0xF30A
      (fun t => t.getV 3 == 9#8 && t.pc == 0x0202#16 && t.dt == 4#8) = true := by decide

/-- V99, V100. -/
theorem test_ld_dt_vx :
    after (withRegs [(4, 0x3C)]) 0xF415 (fun t => t.dt == 0x3B#8) = true ∧
    after (withRegs [(3, 0)]) 0xF315 (fun t => t.dt == 0#8) = true := by decide

/-- V102, V103. -/
theorem test_ld_st_vx :
    after (withRegs [(3, 1)]) 0xF318 (fun t => t.st == 0#8 && !t.beep) = true ∧
    after (withRegs [(3, 2)]) 0xF318 (fun t => t.st == 1#8 && t.beep) = true := by decide

/-- V109: an unimplemented opcode halts with no tick. -/
theorem test_unimplemented :
    after { State.reset with dt := 5#8 } 0xF0FF
      (fun t => record t == some ⟨.unimplementedInstruction, some 0xF0FF#16, 0x0200#16⟩ && t.dt == 5#8) = true := by decide

/-- V112: the first two glyphs at FONT_BASE, and 0x00 from 0x050 on. -/
theorem test_construct :
    State.reset.readBlock 0x000 10
      = some [0xF0#8, 0x90#8, 0x90#8, 0x90#8, 0xF0#8, 0x20#8, 0x60#8, 0x20#8, 0x20#8, 0x70#8] ∧
    State.reset.memRead 0x050 = some 0#8 ∧ State.reset.memRead 0xFFF = some 0#8 ∧ State.reset.memRead 0x1000 = none := by
  decide

/-- V113. -/
theorem test_step_without_load :
    step State.reset = .next (haltedBy .unimplementedInstruction (some 0x0000#16) State.reset) := by rfl

/-- V114. -/
theorem test_load_too_long_any (s : State) : s.load (List.replicate 3585 0xAB#8) = .fault .loadError := by
  refine if_neg ?_
  simp only [imageFits, Config.maxRom, List.length_replicate]; decide

/-- 70_reset_and_hazards.md R276: the second load, here behind a KEYS write, is refused. -/
theorem test_second_load :
    (match Session.act (Session.construct referenceParams) (.load [0x12, 0x00]) with
      | .next σ =>
        match Session.act σ (.writeKeys (Vector.replicate 16 true)) with
        | .next τ => Session.act τ (.load [0x12, 0x00])
        | r => r
      | r => r) = .refused .loadOutsideLifecycle := by rfl

/-- 60_exceptions.md R248: no KEYS write on a halted Machine. -/
theorem test_keys_when_halted :
    Session.act ⟨.started, haltedBy .stackUnderflow (some 0x00EE#16) State.reset, .polled .halt⟩
      (.writeKeys (Vector.replicate 16 true)) = .refused .keysOutsideLifecycle := by rfl

/-! ### Witnesses: for every statement with hypotheses, a state and operands that meet them -/

/-- A completed instruction that is no key wait, from its answer. -/
theorem completes {i : Instr} {s t : State} (h : exec i s = .next t) (hs : s.status = .running) (ht : t.status = .running)
    (hi : ∀ x, i ≠ .ldVxK x) : Completes i s t :=
  ⟨hs, h, ht, fun ⟨⟨x, e⟩, _⟩ => hi x e⟩

/-- A list of one byte in memory. -/
theorem holds_one (s : State) (a : Nat) (b : Byte) (h : s.memRead a = some b) : Holds s a [b] := by
  intro k c hk
  match k with
  | 0 => cases hk; exact h

theorem holds_none (s : State) (a : Nat) : Holds s a [] := fun _ _ h => by cases h

theorem witness_EncodeOfDecode : decodeOpcode 0x01EE#16 = some (.ret 0x1) ∧ decodeOpcode 0xFFFF#16 = none := by decide

theorem witness_DecodeFollowsTable :
    decodeOpcode 0x5AB7#16 = some (.seReg 0xA 0xB 0x7) ∧ (∀ r ∈ opcodeTable, r.selects 0x8008#16 = false) := by decide

theorem witness_TableRowsAreDisjoint :
    rowOf (.cls 0) ∈ opcodeTable ∧ (rowOf (.cls 0)).selects 0x0FE0#16 = true := by decide

/-- The last place an instruction fits. -/
theorem witness_StepRunsDecodedInstruction :
    ∃ s : State, s.status = .running ∧ s.pc = 0x0FFE#16 ∧
      s.memRead s.pc.toNat = some 0x12#8 ∧ s.memRead (s.pc.toNat + 1) = some 0x34#8 ∧
      decode [0x12, 0x34] = .ok (.jp 0x234, []) ∧ (Instr.jp 0x234).wellFormed = true :=
  ⟨{ State.reset with pc := 0x0FFE#16 }.putBytes 0xFFE [0x12, 0x34], by decide, by decide, by decide, by decide, rfl, rfl⟩

theorem witness_FetchBeyondMemoryHalts :
    ∃ s : State, s.status = .running ∧ s.pc = 0x0FFF#16 ∧ 0xFFE < s.pc.toNat :=
  ⟨{ State.reset with pc := 0x0FFF#16 }, rfl, rfl, by decide⟩

theorem witness_UnimplementedOpcodeHalts :
    State.reset.status = .running ∧ State.reset.memRead State.reset.pc.toNat = some 0#8 ∧
    State.reset.memRead (State.reset.pc.toNat + 1) = some 0#8 ∧
    (∀ r ∈ opcodeTable, r.selects (opcodeOfBytes 0 0) = false) := by decide

/-- A halted state, for the clause on halted machines. -/
def haltedState : State := haltedBy .unimplementedInstruction (some 0x0000#16) State.reset

theorem witness_StepAnswers :
    State.reset.status = .running ∧ haltedState.status = .halted ⟨.unimplementedInstruction, some 0x0000#16, 0x0200#16⟩ := by
  decide

theorem witness_HaltsArePrecise :
    State.reset.status = .running ∧ step State.reset = .next haltedState ∧
    haltedState.status = .halted ⟨.unimplementedInstruction, some 0x0000#16, 0x0200#16⟩ := ⟨rfl, rfl, rfl⟩

theorem witness_HoldOnlyAtKeyWait : (State.reset.withFetchWord 16 0xF30A).pollKind = some .hold := by decide

theorem witness_EveryCompletionTicks :
    (∃ t, Completes (.ldDtVx 0) State.reset t) ∧ (∃ t, Completes (.ldStVx 0) State.reset t) ∧
    (∃ t, Completes (.cls 0) State.reset t) ∧ (∃ t, Completes (.drw 0 1 0) State.reset t) ∧
    (∃ t, Completes (.ldImm 0 5) State.reset t) :=
  ⟨⟨_, completes rfl rfl rfl nofun⟩, ⟨_, completes rfl rfl rfl nofun⟩, ⟨_, completes rfl rfl rfl nofun⟩,
    ⟨_, completes rfl rfl rfl nofun⟩, ⟨_, completes rfl rfl rfl nofun⟩⟩

theorem witness_BeepFollowsSoundTimer :
    ∃ s t : State, s.pollKind = some .next ∧ step s = .next t ∧ t.st = 4#8 :=
  ⟨(withRegs [(4, 5)]).withFetchWord 16 0xF418, _, by decide, rfl, by decide⟩

theorem reset_inv : Inv State.reset :=
  ⟨rfl, State.reset_wf, rfl, fun _ h => by cases h⟩

theorem witness_StepKeepsInv : Inv State.reset ∧ step State.reset = .next haltedState := ⟨reset_inv, rfl⟩

/-- FONT_BASE at both ends of its range. -/
theorem witness_ConstructionHasInv :
    referenceParams.wellFormed = true ∧ (paramsAt 0x1B0).wellFormed = true := by decide

theorem witness_StepNeverWritesKeysOrParams : ∃ s t : State, s.pollKind = some .next ∧ step s = .next t :=
  ⟨State.reset.withFetchWord 16 0x6005, _, by decide, rfl⟩

theorem witness_OnlyDisplayWritesFramebuffer :
    ∃ s t : State, exec (.cls 0) s = .next t ∧ t.fb ≠ s.fb :=
  ⟨{ State.reset with fb := fbRow 3 1#64 }, _, rfl, by decide⟩

theorem witness_OnlyStoresWriteMemory :
    (∃ s t : State, exec (.ldBVx 0) s = .next t ∧ t.memRead (s.i.toNat + 2) ≠ s.memRead (s.i.toNat + 2)) ∧
    (∃ s t : State, exec (.ldMemVx 1) s = .next t ∧ t.memRead (s.i.toNat + 1) ≠ s.memRead (s.i.toNat + 1)) :=
  ⟨⟨{ withRegs [(0, 0xFF)] with i := 0x0300#16 }, _, rfl, by decide⟩,
    ⟨{ withRegs [(1, 0xFF)] with i := 0x0300#16 }, _, rfl, by decide⟩⟩

theorem witness_OnlyCallAndRetTouchStack :
    (∃ t, exec (.call 0x300) State.reset = .next t ∧ t.sp ≠ State.reset.sp ∧ t.stack ≠ State.reset.stack) ∧
    (∃ s t : State, exec (.ret 0) s = .next t ∧ t.sp ≠ s.sp) :=
  ⟨⟨_, rfl, by decide, by decide⟩, ⟨{ State.reset with sp := 1 }, _, rfl, by decide⟩⟩

theorem witness_OnlyListedInstructionsWriteVf :
    (∃ s t : State, exec (.addReg 0 1) s = .next t ∧ t.getV vf ≠ s.getV vf) ∧
    (∃ t, exec (.ldVxMem 0xF) State.reset = .next t ∧ t.getV vf ≠ State.reset.getV vf) :=
  ⟨⟨withRegs [(0, 0xFF), (1, 1)], _, rfl, by decide⟩, ⟨_, rfl, by decide⟩⟩

theorem witness_OnlyListedInstructionsWriteIndex :
    (∃ t, exec (.ldI 0x2F0) State.reset = .next t ∧ t.i ≠ State.reset.i) ∧
    (∃ s t : State, s.params.loadStoreIncrementsI = true ∧ exec (.ldMemVx 0) s = .next t ∧ t.i ≠ s.i) :=
  ⟨⟨_, rfl, by decide⟩,
    ⟨{ State.reset with params := { referenceParams with loadStoreIncrementsI := true } }, _, rfl, rfl, by decide⟩⟩

theorem witness_PcAdvancesByTwo : ∃ t, Completes (.addReg 0 1) State.reset t := ⟨_, completes rfl rfl rfl nofun⟩

/-- Both ends of the font at the highest FONT_BASE, and both ends of memory. -/
theorem witness_ConstructionMemory :
    (paramsAt 0x1B0).wellFormed = true ∧
    (State.construct (paramsAt 0x1B0)).memRead 0x1B0 = some 0xF0#8 ∧
    (State.construct (paramsAt 0x1B0)).memRead 0x1FF = some 0x80#8 ∧
    (State.construct (paramsAt 0x1B0)).memRead 0x1AF = some 0#8 ∧
    (State.construct (paramsAt 0x1B0)).memRead 0x200 = some 0#8 ∧
    (State.construct (paramsAt 0x1B0)).memRead 0xFFF = some 0#8 ∧
    (State.construct (paramsAt 0x1B0)).memRead 0x1000 = none := by decide

/-- The empty image and the longest one; behind the empty one a byte stays 0x00. -/
theorem witness_LoadPlacesImage :
    ([] : List Byte).length ≤ 3584 ∧ (List.replicate 3584 0xAB#8).length ≤ 3584 ∧ referenceParams.wellFormed = true ∧
    0x200 + ([] : List Byte).length ≤ 0xFFF := by
  simp only [List.length_replicate, List.length_nil]; decide

theorem witness_LoadRejectsLongImages :
    3584 < (List.replicate 3585 0xAB#8).length ∧ (List.replicate 3584 0xAB#8).length = 3584 := by
  simp only [List.length_replicate]; decide

/-- Both results of the one load, a step, and a KEYS write after a load (the boot order of 70_reset_and_hazards.md R277). -/
theorem witness_LoadOnceBeforeFirstStep :
    (∃ τ, Session.act (Session.construct referenceParams) (.load [0x12]) = .next τ) ∧
    (∃ τ, Session.act (Session.construct referenceParams) (.load (List.replicate 3585 0xAB#8)) = .next τ) ∧
    (∃ τ, Session.act (Session.construct referenceParams) .step = .next τ) ∧
    (∃ σ τ : Session, σ.phase ≠ .constructed ∧ Session.act σ (.writeKeys (Vector.replicate 16 true)) = .next τ) := by
  refine ⟨⟨_, rfl⟩, ⟨⟨.loadCalled, State.reset, .loadError⟩, ?_⟩, ⟨_, rfl⟩,
    ⟨⟨.loadCalled, State.reset, .success⟩, _, by decide, rfl⟩⟩
  simp only [Session.act, Session.construct, State.reset, test_load_too_long_any]

/-- A fresh session, and one whose machine has halted. -/
theorem witness_HostTouchesOnlyItsParts :
    (Session.construct referenceParams).phase = .constructed ∧ 3584 < (List.replicate 3585 0xAB#8).length ∧
    (Session.construct referenceParams).machine.status = .running ∧
    (⟨.started, haltedState, .polled .halt⟩ : Session).machine.status
      = .halted ⟨.unimplementedInstruction, some 0x0000#16, 0x0200#16⟩ ∧
    (∃ τ, Session.act (Session.construct referenceParams) .step = .next τ) := by
  refine ⟨rfl, ?_, rfl, rfl, ⟨_, rfl⟩⟩
  simp only [List.length_replicate]; decide

theorem witness_FirstStepWithoutLoadHalts : (paramsAt 0x1B0).wellFormed = true := by decide

/-- The deepest call that has room. -/
theorem witness_CallPushesReturnAddress : ({ State.reset with sp := 15 } : State).sp.val < 16 := by decide

/-- Returns from the deepest call and from the outermost one. -/
theorem witness_RetPopsReturnAddress :
    ({ State.reset with sp := 16 } : State).sp.val = (15 : Fin 16).val + 1 ∧
    ({ State.reset with sp := 1 } : State).sp.val = (0 : Fin 16).val + 1 := by decide

theorem witness_StackLimitsHalt :
    ({ State.reset with sp := 16 } : State).sp.val = 16 ∧ State.reset.sp.val = 0 := by decide

/-- A call and the state right behind it. -/
theorem witness_CallThenRetReturns :
    ∃ s t u : State, s.sp.val < 16 ∧ exec (.call 0x300) s = .next t ∧ u.sp = t.sp ∧ u.stack[s.sp.val]! = t.stack[s.sp.val]! :=
  ⟨State.reset, _, _, by decide, rfl, rfl, rfl⟩

theorem witness_ImmediateSkips : 0x3FFF#16 &&& 0xF000#16 = 0x3000#16 ∧ 0x4A42#16 &&& 0xF000#16 = 0x4000#16 := by decide

theorem witness_RegisterLoads :
    0x6FFF#16 &&& 0xF000#16 = 0x6000#16 ∧ 0x7000#16 &&& 0xF000#16 = 0x7000#16 ∧ 0x8FF0#16 &&& 0xF00F#16 = 0x8000#16 := by
  decide

/-- Both sides of the carry's boundary. -/
theorem witness_AddSetsCarry :
    (0x0 : Nibble) ≠ vf ∧
    255 < ((withRegs [(0, 0xFF), (1, 1)]).getV 0).toNat + ((withRegs [(0, 0xFF), (1, 1)]).getV 1).toNat ∧
    ¬ 255 < ((withRegs [(0, 0xFF)]).getV 0).toNat + ((withRegs [(0, 0xFF)]).getV 1).toNat := by decide

/-- Equal operands, the boundary of the comparison, and one above; each placing of VF. -/
theorem witness_SubSetsNotBorrow :
    (0x00#8 = if ((withRegs [(0, 7), (1, 7)]).getV 1).toNat < ((withRegs [(0, 7), (1, 7)]).getV 0).toNat then 0x01#8 else 0x00#8) ∧
    (0x01#8 = if ((withRegs [(0, 8), (1, 7)]).getV 1).toNat < ((withRegs [(0, 8), (1, 7)]).getV 0).toNat then 0x01#8 else 0x00#8) ∧
    (0x0 : Nibble) ≠ vf ∧ (0xF : Nibble) = vf := by decide

theorem witness_SubnSetsNotBorrow :
    (0x00#8 = if ((withRegs [(0, 7), (1, 7)]).getV 0).toNat < ((withRegs [(0, 7), (1, 7)]).getV 1).toNat then 0x01#8 else 0x00#8) ∧
    (0x01#8 = if ((withRegs [(0, 7), (1, 8)]).getV 0).toNat < ((withRegs [(0, 7), (1, 8)]).getV 1).toNat then 0x01#8 else 0x00#8) ∧
    (0x0 : Nibble) ≠ vf ∧ (0xF : Nibble) = vf := by decide

theorem witness_ShiftsByOne : (0xE : Nibble) ≠ vf ∧ (0xF : Nibble) = vf := by decide

theorem witness_LoadIndex : 0xAFFF#16 &&& 0xF000#16 = 0xA000#16 := by decide

/-- Both sides of the default threshold. -/
theorem witness_AddIndexSetsFlag :
    referenceParams.fx1eThreshold.toNat < 0x0FFF + 0x01 ∧ ¬ referenceParams.fx1eThreshold.toNat < 0x0FFE + 0x01 := by decide

theorem witness_BcdStoresDigits : ({ State.reset with i := 0x0FFD#16 } : State).effAddr 2 ≤ 0xFFF := by decide

theorem witness_BlockStore :
    ({ State.reset with i := 0x0FF0#16 } : State).effAddr (0xF : Nibble).toNat ≤ 0xFFF ∧
    ({ State.reset with i := 0x0FFF#16 } : State).effAddr (0x0 : Nibble).toNat ≤ 0xFFF := by decide

theorem witness_BlockLoad : ({ State.reset with i := 0x0FF0#16 } : State).effAddr (0xF : Nibble).toNat ≤ 0xFFF := by decide

/-- Each clause one address past its last legal one. -/
theorem witness_OutOfRangeAccessHalts :
    0xFFF < ({ State.reset with i := 0x0FFE#16 } : State).effAddr 2 ∧
    0xFFF < ({ State.reset with i := 0x0FF1#16 } : State).effAddr (0xF : Nibble).toNat ∧
    0 < (0x2 : Nibble).toNat ∧ 0xFFF < ({ State.reset with i := 0x0FFF#16 } : State).effAddr ((0x2 : Nibble).toNat - 1) := by
  decide

/-- The last two bytes of memory, by either store, and the last two digits of one. -/
theorem witness_StoredBytesAreFetched :
    (State.reset.memRead (0x0FFE#16).toNat = some 0#8 ∧ State.reset.memRead ((0x0FFE#16).toNat + 1) = some 0#8) ∧
    (({ State.reset with i := 0x0FF0#16 } : State).effAddr (0xF : Nibble).toNat ≤ 0xFFF ∧ 14 + 1 ≤ (0xF : Nibble).toNat) ∧
    ({ State.reset with i := 0x0FFD#16 } : State).effAddr 2 ≤ 0xFFF := by decide

theorem witness_ClsClears : 0x0FE0#16 &&& 0xF0FF#16 = 0x00E0#16 := by decide

/-- A one-row sprite at the last address of memory. -/
def spriteState (fb : Framebuffer) : State := { State.reset with i := 0x0FFF#16, fb := fb }.putBytes 0xFFF [0x80]

theorem spriteState_holds (fb : Framebuffer) : Holds (spriteState fb) ((spriteState fb).effAddr 0) [0x80#8] := by
  refine holds_one _ _ _ ?_
  simp [State.memRead_eq, spriteState, State.effAddr, State.putBytes]

theorem spriteState_covers : Covers 0#8 0#8 [0x80#8] 0 0 := ⟨0, 0x80#8, 0, rfl, by decide, by decide, rfl, rfl⟩

/-- One row and none; a covered pixel that is lit, and none that is. -/
theorem witness_DrawTogglesCoveredPixels :
    ([0x80#8] : List Byte).length = (0x1 : Nibble).toNat ∧ Holds (spriteState blankFb) ((spriteState blankFb).effAddr 0) [0x80#8] ∧
    ([] : List Byte).length = (0x0 : Nibble).toNat ∧ Holds State.reset (State.reset.effAddr 0) [] ∧
    (∃ r c, Covers ((spriteState (fbRow 0 0x8000000000000000#64)).getV 0) ((spriteState (fbRow 0 0x8000000000000000#64)).getV 1)
      [0x80#8] r c ∧ Lit (spriteState (fbRow 0 0x8000000000000000#64)) r c) ∧
    (∀ r c, Covers ((spriteState blankFb).getV 0) ((spriteState blankFb).getV 1) [0x80#8] r c → ¬ Lit (spriteState blankFb) r c) :=
  ⟨rfl, spriteState_holds _, rfl, holds_none _ _, ⟨0, 0, spriteState_covers, by unfold Lit; decide⟩,
    fun r c _ => by simp [Lit, Framebuffer.pixel, spriteState, State.putBytes, blankFb, BitVec.getMsbD]⟩

theorem witness_ClearThenDraw :
    ([0x80#8] : List Byte).length = (0x1 : Nibble).toNat ∧
    Holds (spriteState (fbRow 0 1#64)) ((spriteState (fbRow 0 1#64)).effAddr 0) [0x80#8] := ⟨rfl, spriteState_holds _⟩

/-- The state between the two draws is the first draw's own next state. -/
theorem witness_DrawTwiceRestores :
    ([0x80#8] : List Byte).length = (0x1 : Nibble).toNat ∧
    Holds (spriteState blankFb) ((spriteState blankFb).effAddr 0) [0x80#8] ∧
    (∃ t u : State, exec (.drw 0 1 1) (spriteState blankFb) = .next t ∧ u.fb = t.fb ∧ u.i = (spriteState blankFb).i ∧
      u.getV 0 = (spriteState blankFb).getV 0 ∧ u.getV 1 = (spriteState blankFb).getV 1 ∧
      Holds u ((spriteState blankFb).effAddr 0) [0x80#8]) ∧
    (∃ r c, Covers ((spriteState blankFb).getV 0) ((spriteState blankFb).getV 1) [0x80#8] r c ∧ ¬ Lit (spriteState blankFb) r c) :=
  ⟨rfl, spriteState_holds _, ⟨_, spriteState (fbRow 0 0x8000000000000000#64), rfl, by decide, rfl, rfl, rfl, spriteState_holds _⟩,
    ⟨0, 0, spriteState_covers, by unfold Lit; decide⟩⟩

/-- The last key index and the first value that is none. -/
theorem witness_KeySkips :
    ((withRegs [(1, 0x0F)]).getV 1).toNat = (15 : Fin 16).val ∧ 0x0F < ((withRegs [(1, 0x10)]).getV 1).toNat := by decide

theorem witness_KeyWait :
    (∀ k : Fin 16, State.reset.keys[k] = false) ∧ (pressing [4, 9]).keys[(4 : Fin 16)] = true ∧
    (pressing [4, 9]).keys[(9 : Fin 16)] = true := by decide

/-- Fx07 right behind Fx15, and with one step between them. -/
theorem witness_TimerObservation :
    (∃ s t w : State, Completes (.ldDtVx 0) s t ∧ QuietSteps 0 t t ∧ Completes (.ldVxDt 1) t w) ∧
    (∃ s t u w : State, Completes (.ldDtVx 0) s t ∧ QuietSteps 1 t u ∧ Completes (.ldVxDt 1) u w) := by
  let s : State := (withRegs [(0, 5)]).putBytes 0x202 [0x60, 0x05]
  exact ⟨⟨State.reset, _, _, completes rfl rfl rfl nofun, .zero _, completes rfl rfl rfl nofun⟩,
    ⟨s, _, _, _, completes rfl rfl rfl nofun,
      .succ (w := 0x6005#16) (i := .ldImm 0 5) (.zero _) (by decide) (by decide) nofun (completes rfl rfl rfl nofun),
      completes rfl rfl rfl nofun⟩⟩

end Sys2Proof.Tests
end

section
/-! SUPPORT. The encoder undoes the decoder: an opcode that decodes is the encoding of what it decodes to. -/

namespace Sys2Proof.Proofs

/-! ### An opcode put together from its own fields (30_encoding.md R92) -/

theorem packNNN_nnnField {w : Word} {op : Nibble} (hop : opField w = op) : packNNN op (nnnField w) = w :=
  hop ▸ packNNN_fields w

theorem packXKK_xField_kkField {w : Word} {op : Nibble} (hop : opField w = op) :
    packXKK op (xField w) (kkField w) = w :=
  hop ▸ packXKK_fields w

theorem packXKK_xField {w : Word} {op : Nibble} {kk : Byte} (hop : opField w = op) (hkk : kkField w = kk) :
    packXKK op (xField w) kk = w :=
  hkk ▸ packXKK_xField_kkField hop

theorem packXYN_xField_yField_nField {w : Word} {op : Nibble} (hop : opField w = op) :
    packXYN op (xField w) (yField w) (nField w) = w :=
  hop ▸ packXYN_fields w

theorem packXYN_xField_yField {w : Word} {op n : Nibble} (hop : opField w = op) (hn : nField w = n) :
    packXYN op (xField w) (yField w) n = w :=
  hn ▸ packXYN_xField_yField_nField hop

/-! ### The four families with a second dispatch (30_encoding.md R95, R96) -/

/-- CLS and RET keep the `x` nibble they ignore, so nothing of the opcode is lost (log 10). -/
theorem encode_of_decodeFamily0 {w : Word} {i : Instr} (hop : opField w = 0x0#4) (h : decodeFamily0 w = some i) :
    encode i = w := by
  unfold decodeFamily0 at h
  split at h <;> rename_i hkk <;> cases h <;> exact packXKK_xField hop hkk

theorem encode_of_decodeFamily8 {w : Word} {i : Instr} (hop : opField w = 0x8#4) (h : decodeFamily8 w = some i) :
    encode i = w := by
  unfold decodeFamily8 at h
  split at h <;> rename_i hn <;> cases h <;> exact packXYN_xField_yField hop hn

theorem encode_of_decodeFamilyE {w : Word} {i : Instr} (hop : opField w = 0xE#4) (h : decodeFamilyE w = some i) :
    encode i = w := by
  unfold decodeFamilyE at h
  split at h <;> rename_i hkk <;> cases h <;> exact packXKK_xField hop hkk

theorem encode_of_decodeFamilyF {w : Word} {i : Instr} (hop : opField w = 0xF#4) (h : decodeFamilyF w = some i) :
    encode i = w := by
  unfold decodeFamilyF at h
  split at h <;> rename_i hkk <;> cases h <;> exact packXKK_xField hop hkk

/-! ### The whole table -/

/-- Every opcode that decodes is the encoding of what it decodes to (log 10): by the high nibble, then by format. -/
theorem encode_of_decodeOpcode {w : Word} {i : Instr} (h : decodeOpcode w = some i) : encode i = w := by
  unfold decodeOpcode at h
  split at h <;> rename_i hop
  case h_1 => exact encode_of_decodeFamily0 hop h
  case h_9 => exact encode_of_decodeFamily8 hop h
  case h_15 => exact encode_of_decodeFamilyE hop h
  case h_16 => exact encode_of_decodeFamilyF hop h
  case h_17 => cases h
  all_goals cases h
  case h_2 | h_3 | h_11 | h_12 => exact packNNN_nnnField hop
  case h_4 | h_5 | h_7 | h_8 | h_13 => exact packXKK_xField_kkField hop
  case h_6 | h_10 | h_14 => exact packXYN_xField_yField_nField hop

end Sys2Proof.Proofs
end

section
/-! SUPPORT. The invariant of the machine is kept by each way a poll can end, and so by every step. -/

namespace Sys2Proof.Proofs

open Sys2Proof.Machine Sys2Proof.Safety

/-- A halt writes neither PC nor memory, so the opcode at PC stays what was fetched (60_exceptions.md R233). -/
@[simp] theorem raiseHalt_fetch16 (s : State) (r : HaltReason) (o : Option Word) :
    (s.raiseHalt r o).fetch16 = s.fetch16 := rfl

/-- A halt that records the opcode at PC keeps the invariant: its record is true, and nothing else changed. -/
theorem raiseHalt_inv {s : State} (r : HaltReason) (hs : Inv s) : Inv (s.raiseHalt r s.fetch16) where
  params := hs.params
  mem := hs.mem
  beep := hs.beep
  record := by
    intro rec hrec
    obtain rfl := RunStatus.halted.inj hrec
    exact ⟨rfl, rfl⟩

/-- The end of a completed instruction sets BEEP right (60_exceptions.md R243), whatever BEEP was before. -/
theorem finish_inv {s : State} (drew : Bool) (hparams : s.params.wellFormed = true) (hmem : Memory.wf s.params s.mem)
    (hrun : s.status = .running) : Inv (s.finish drew) where
  params := hparams
  mem := hmem
  beep := (State.finish_ended s drew).beep
  record := by
    intro rec hrec
    rw [State.finish_status, hrun] at hrec
    cases hrec

/-- Executing the instruction that stands at PC keeps the invariant. -/
theorem exec_inv {i : Instr} {s t : State} (hs : Inv s) (hrun : s.status = .running)
    (hfetch : s.fetch16 = some (encode i)) (h : exec i s = .next t) : Inv t := by
  obtain ⟨rfl, -⟩ | ⟨r, rfl⟩ | ⟨s', drew, rfl, hstatus, -, hparams, -, -, -, hmem, -⟩ := Laws.exec_cases i s t h
  · exact hs
  · exact hfetch ▸ raiseHalt_inv r hs
  · refine finish_inv drew ?_ ?_ (hstatus.trans hrun)
    · rw [hparams]; exact hs.params
    · rw [hparams]; exact hmem hs.mem

/-- Settles O14: a halt at fetch or decode records what the fetch gave, and the opcode a halting instruction records is its own
encoding, which is the fetched opcode because the encoder undoes the decoder. -/
theorem stepKeepsInv : Obligations.StepKeepsInv := by
  intro s t hs h
  obtain ⟨hrun, ⟨r, o, rfl, rfl⟩ | ⟨w, i, hfetch, hdecode, hexec⟩⟩ := Laws.step_cases s t h
  · exact raiseHalt_inv r hs
  · rw [← encode_of_decodeOpcode hdecode] at hfetch
    exact exec_inv hs hrun hfetch hexec

end Sys2Proof.Proofs
end

section
/-! SUPPORT. Which instructions change which part of the state: a part an instruction changes is one it may write
(`Laws.exec_writes`), so each rule is a reading of `Laws.writes` for one part. -/

namespace Sys2Proof.Proofs

open Sys2Proof.Machine Sys2Proof.Safety

/-! ### KEYS and the parameters -/

/-- Holding, halting or completing, no instruction writes KEYS or a parameter. -/
theorem exec_keys_params {i : Instr} {s t : State} (h : exec i s = .next t) : t.keys = s.keys ∧ t.params = s.params := by
  obtain ⟨rfl, -⟩ | ⟨r, rfl⟩ | ⟨s', drew, rfl, -, hkeys, hparams, -⟩ := Laws.exec_cases i s t h
  · exact ⟨rfl, rfl⟩
  · exact ⟨rfl, rfl⟩
  · exact ⟨hkeys, hparams⟩

/-- Settles O16: a halt at fetch or decode writes STATUS alone, and no instruction writes KEYS or a parameter. -/
theorem stepNeverWritesKeysOrParams : Obligations.StepNeverWritesKeysOrParams := by
  intro s t h
  obtain ⟨-, ⟨r, o, rfl, -⟩ | ⟨w, i, -, -, hexec⟩⟩ := Laws.step_cases s t h
  · exact ⟨rfl, rfl⟩
  · exact exec_keys_params hexec

/-! ### The parts an instruction does not reach -/

@[simp] theorem not_nothing (p : Part) : ¬ nothing p := id

/-- A store reaches memory and no other part. -/
theorem bytesFrom_iff (a n : Nat) (p : Part) : bytesFrom a n p ↔ ∃ b, p = .byte b ∧ a ≤ b ∧ b < a + n := Iff.rfl

/-! ### The framebuffer -/

theorem writes_framebuffer {s : State} {i : Instr} (h : Laws.writes s i .framebuffer) :
    (∃ x, i = .cls x) ∨ ∃ x y n, i = .drw x y n := by
  cases i with
  | cls x => exact .inl ⟨x, rfl⟩
  | drw x y n => exact .inr ⟨x, y, n, rfl⟩
  | _ => simp [Laws.writes, bytesFrom_iff] at h

/-- Settles O17: the framebuffer is one part, written by two arms alone. -/
theorem onlyDisplayWritesFramebuffer : Obligations.OnlyDisplayWritesFramebuffer := by
  intro i s t h hfb
  exact writes_framebuffer (Laws.exec_writes i s t h .framebuffer hfb nofun)

/-! ### The stack (10_state.md R38) -/

theorem writes_sp {s : State} {i : Instr} (h : Laws.writes s i .sp) : (∃ nnn, i = .call nnn) ∨ ∃ x, i = .ret x := by
  cases i with
  | call nnn => exact .inl ⟨nnn, rfl⟩
  | ret x => exact .inr ⟨x, rfl⟩
  | _ => simp [Laws.writes, bytesFrom_iff] at h

theorem writes_stackEntry {s : State} {i : Instr} {j : Fin 16} (h : Laws.writes s i (.stackEntry j)) :
    ∃ nnn, i = .call nnn := by
  cases i with
  | call nnn => exact ⟨nnn, rfl⟩
  | _ => simp [Laws.writes, bytesFrom_iff] at h

/-- A stack that changed has an entry that changed. -/
theorem exists_stackEntry_not_same {s t : State} (h : t.stack ≠ s.stack) : ∃ j, ¬ (Part.stackEntry j).same s t := by
  by_contra hall
  push Not at hall
  exact h (Vector.ext fun j hj => hall ⟨j, hj⟩)

/-- Settles O19: SP is one part, and the stack is compared entry by entry. -/
theorem onlyCallAndRetTouchStack : Obligations.OnlyCallAndRetTouchStack := by
  intro i s t h
  constructor
  · intro hsp
    exact writes_sp (Laws.exec_writes i s t h .sp hsp nofun)
  · intro hstack
    obtain ⟨j, hj⟩ := exists_stackEntry_not_same hstack
    exact writes_stackEntry (Laws.exec_writes i s t h (.stackEntry j) hj nofun)

/-! ### VF (10_state.md R48) -/

/-- VF is the highest register, so a block load reaches it only when it loads them all. -/
theorem eq_vf_of_vf_le {x : Nibble} (h : vf.toNat ≤ x.toNat) : x = vf := by
  have hx := x.isLt
  have hvf : vf.toNat = 15 := rfl
  exact BitVec.eq_of_toNat_eq (by omega)

/-- The instructions that may write VF, by their arms in `Laws.writes`: those that write one named register, the seven
flag writers, and the block load. -/
theorem writes_vf {s : State} {i : Instr} (h : Laws.writes s i (.reg vf)) :
    (∃ x y, i = .addReg x y ∨ i = .sub x y ∨ i = .shr x y ∨ i = .subn x y ∨ i = .shl x y) ∨
    (∃ x y n, i = .drw x y n) ∨ (∃ x, i = .addIVx x) ∨
    (∃ kk, i = .ldImm vf kk ∨ i = .addImm vf kk ∨ i = .rnd vf kk) ∨
    (∃ y, i = .ldReg vf y ∨ i = .orReg vf y ∨ i = .andReg vf y ∨ i = .xorReg vf y) ∨
    i = .ldVxDt vf ∨ i = .ldVxK vf ∨ i = .ldVxMem vf := by
  cases i with
  | ldImm x _ | addImm x _ | ldReg x _ | orReg x _ | andReg x _ | xorReg x _ | ldVxDt x =>
    obtain rfl : vf = x := Part.reg.inj h
    simp
  | rnd x _ | ldVxK x =>
    obtain rfl : vf = x := Part.reg.inj (h.resolve_right nofun)
    simp
  | addReg | sub | shr | subn | shl | drw | addIVx => simp
  | ldVxMem x =>
    obtain ⟨r, hrx, hr⟩ | ⟨-, hindex⟩ := h
    · obtain rfl := Part.reg.inj hr
      obtain rfl := eq_vf_of_vf_le hrx
      simp
    · cases hindex
  | _ => simp [Laws.writes, bytesFrom_iff] at h

/-- Settles O20: VF is the register part 0xF. -/
theorem onlyListedInstructionsWriteVf : Obligations.OnlyListedInstructionsWriteVf := by
  intro i s t h hvf
  exact writes_vf (Laws.exec_writes i s t h (.reg vf) hvf nofun)

/-! ### I (10_state.md R37) -/

/-- Fx55 and Fx65 reach I only through their optional step of it (decision D17). -/
theorem writes_index {s : State} {i : Instr} (h : Laws.writes s i .index) :
    (∃ nnn, i = .ldI nnn) ∨ (∃ x, i = .addIVx x ∨ i = .ldFVx x) ∨
    (s.params.loadStoreIncrementsI = true ∧ ∃ x, i = .ldMemVx x ∨ i = .ldVxMem x) := by
  cases i with
  | ldI nnn => exact .inl ⟨nnn, rfl⟩
  | addIVx x => exact .inr (.inl ⟨x, .inl rfl⟩)
  | ldFVx x => exact .inr (.inl ⟨x, .inr rfl⟩)
  | ldMemVx x =>
    obtain ⟨_, hbyte, -⟩ | ⟨hset, -⟩ := h
    · cases hbyte
    · exact .inr (.inr ⟨hset, x, .inl rfl⟩)
  | ldVxMem x =>
    obtain ⟨_, -, hreg⟩ | ⟨hset, -⟩ := h
    · cases hreg
    · exact .inr (.inr ⟨hset, x, .inr rfl⟩)
  | _ => simp [Laws.writes, bytesFrom_iff] at h

/-- Settles O21: I is one part. -/
theorem onlyListedInstructionsWriteIndex : Obligations.OnlyListedInstructionsWriteIndex := by
  intro i s t h hi
  exact writes_index (Laws.exec_writes i s t h .index hi nofun)

end Sys2Proof.Proofs
end

section
/-! SUPPORT. A completed instruction that transfers no control leaves PC = pc + 2 (10_state.md R35). The instructions that can hold or
halt have a lemma each; PC of every other one is read off its arm. -/

namespace Sys2Proof.Proofs

open Sys2Proof.Machine Sys2Proof.Safety

/-- A Machine that still runs has not taken a halt. -/
theorem haltAt_ne_next {i : Instr} {r : HaltReason} {s t : State} (hrun : t.status = .running) : haltAt i r s ≠ .next t := by
  intro h
  obtain rfl := Host.Outcome.next.inj h
  cases hrun

/-- An instruction that completes by advancing PC leaves it at pc + 2, if its effect before that left PC alone. -/
theorem complete_advance_pc {s s' t : State} {drew : Bool} (h : complete drew s'.advance = .next t)
    (hpc : s'.pc = s.pc) : t.pc = s.pc + 2#16 := by
  obtain rfl := Host.Outcome.next.inj h
  rw [State.finish_pc, State.advance_pc, hpc]

theorem execDrw_pc {x y n : Nibble} {s t : State} (h : execDrw x y n s = .next t) (hrun : t.status = .running) :
    t.pc = s.pc + 2#16 := by
  unfold execDrw at h
  split at h
  · exact absurd h (haltAt_ne_next hrun)
  · exact complete_advance_pc h rfl

theorem execLdBVx_pc {x : Nibble} {s t : State} (h : execLdBVx x s = .next t) (hrun : t.status = .running) :
    t.pc = s.pc + 2#16 := by
  unfold execLdBVx at h
  split at h
  · exact absurd h (haltAt_ne_next hrun)
  next s' hwrite =>
    obtain ⟨-, rfl⟩ := (State.writeBlock_eq_some _ _ _ _).mp hwrite
    exact complete_advance_pc h (by simp)

theorem execLdMemVx_pc {x : Nibble} {s t : State} (h : execLdMemVx x s = .next t) (hrun : t.status = .running) :
    t.pc = s.pc + 2#16 := by
  unfold execLdMemVx at h
  split at h
  · exact absurd h (haltAt_ne_next hrun)
  next s' hwrite =>
    obtain ⟨-, rfl⟩ := (State.writeBlock_eq_some _ _ _ _).mp hwrite
    exact complete_advance_pc h (by simp)

theorem execLdVxMem_pc {x : Nibble} {s t : State} (h : execLdVxMem x s = .next t) (hrun : t.status = .running) :
    t.pc = s.pc + 2#16 := by
  unfold execLdVxMem at h
  split at h
  · exact absurd h (haltAt_ne_next hrun)
  · exact complete_advance_pc h (by simp)

/-- With no key pressed Fx0A would hold, so a completed one has taken a key and advanced. -/
theorem execLdVxK_pc {x : Nibble} {s t : State} (h : execLdVxK x s = .next t) (hpressed : s.pressedKeys ≠ []) :
    t.pc = s.pc + 2#16 := by
  unfold execLdVxK at h
  split at h
  next hnone => exact absurd ((choosePressed_eq_none _ _).mp hnone) hpressed
  · exact complete_advance_pc h rfl

/-- Settles O22: by the instruction; the ten that the premises name as jump, call, return or skip are no cases. -/
theorem pcAdvancesByTwo : Obligations.PcAdvancesByTwo := by
  intro i s t ⟨_, h, hrun, hnoHold⟩ hret hjump hskipImm hskipReg hskipKey
  cases i with
  | ret x => exact absurd rfl (hret x)
  | jp nnn => exact absurd rfl (hjump nnn).1
  | call nnn => exact absurd rfl (hjump nnn).2.1
  | jpV0 nnn => exact absurd rfl (hjump nnn).2.2
  | seImm x kk => exact absurd rfl (hskipImm x kk).1
  | sneImm x kk => exact absurd rfl (hskipImm x kk).2
  | seReg x y n => exact absurd rfl (hskipReg x y n).1
  | sneReg x y n => exact absurd rfl (hskipReg x y n).2
  | skp x => exact absurd rfl (hskipKey x).1
  | sknp x => exact absurd rfl (hskipKey x).2
  | drw => exact execDrw_pc h hrun
  | ldBVx => exact execLdBVx_pc h hrun
  | ldMemVx => exact execLdMemVx_pc h hrun
  | ldVxMem => exact execLdVxMem_pc h hrun
  | ldVxK x => exact execLdVxK_pc h fun hnil => hnoHold ⟨⟨x, rfl⟩, (State.pressedKeys_eq_nil s).mp hnil⟩
  | _ =>
    obtain rfl := Host.Outcome.next.inj h
    rfl

end Sys2Proof.Proofs
end

section
/-! SUPPORT. The Machine right after construction (10_state.md R51): its registers and outputs, and the invariant. -/

namespace Sys2Proof.Proofs

open Sys2Proof.Machine Sys2Proof.Safety

/-- Memory lists nothing yet, ST is 0 and BEEP is off, and nothing has halted. -/
theorem construct_inv {p : Params} (hp : p.wellFormed = true) : Inv (State.construct p) where
  params := hp
  mem := State.construct_wf p
  beep := rfl
  record := nofun

/-- Settles O15: the reference parameters that State.reset takes are legal. -/
theorem constructionHasInv : Obligations.ConstructionHasInv :=
  ⟨fun _ hp => construct_inv hp, construct_inv (p := referenceParams) (by decide)⟩

theorem construct_getV (p : Params) (x : Nibble) : (State.construct p).getV x = 0x00#8 :=
  Vector.getElem_replicate x.isLt

theorem construct_not_lit (p : Params) (r : Fin 32) (c : Fin 64) : ¬ Lit (State.construct p) r c := by
  have hrow : (State.construct p).fb[r] = 0#64 := Vector.getElem_replicate r.isLt
  simp [Lit, Framebuffer.pixel, hrow]

/-- Settles O23: each vector is a repeated zero, and the rest stands in `State.construct`. -/
theorem constructionState : Obligations.ConstructionState := by
  intro p
  refine ⟨rfl, construct_getV p, rfl, rfl, rfl, ?stack, rfl, rfl, ?keys, construct_not_lit p, rfl, rfl, rfl⟩
  case stack => exact fun j => Vector.getElem_replicate j.isLt
  case keys => exact fun k => Vector.getElem_replicate k.isLt

end Sys2Proof.Proofs
end

section
/-! SUPPORT. The memory rules (20_memory.md): an access above 0xFFF halts and writes nothing, only the two stores write memory, and a
fetch reads what they stored. -/

namespace Sys2Proof.Proofs

open Sys2Proof.Machine Sys2Proof.Safety

/-! ### Effective addresses (20_memory.md R63, R64) -/

theorem effAddr_eq (s : State) (j : Nat) : s.effAddr j = s.i.toNat + j := rfl

/-- A block of k + 1 bytes at I is in bounds iff its last address is one of memory. -/
theorem inBounds_effAddr_iff (s : State) (k : Nat) : inBounds (s.effAddr 0) (k + 1) = true ↔ s.effAddr k ≤ 0xFFF := by
  rw [inBounds_iff, effAddr_eq, effAddr_eq]
  omega

theorem inBounds_effAddr_eq_false {s : State} {k : Nat} (h : 0xFFF < s.effAddr k) :
    inBounds (s.effAddr 0) (k + 1) = false := by
  rw [← Bool.not_eq_true, inBounds_effAddr_iff]
  omega

/-- No address of a block that ends inside memory wraps. -/
theorem index_add_toNat {s : State} {j k : Nat} (hjk : j ≤ k) (h : s.effAddr k ≤ 0xFFF) :
    (s.i + BitVec.ofNat 16 j).toNat = s.i.toNat + j := by
  rw [effAddr_eq] at h
  rw [BitVec.toNat_add, BitVec.toNat_ofNat]
  omega

/-! ### Out of range (42_index_memory.md R170, decisions D6, D20) -/

/-- The halt of an instruction leaves the state of `haltedBy` with the instruction's own opcode. -/
theorem haltAt_eq (i : Instr) (r : HaltReason) (s : State) : haltAt i r s = .next (haltedBy r (some (encode i)) s) := rfl

theorem exec_ldBVx_outOfRange {x : Nibble} {s : State} (h : 0xFFF < s.effAddr 2) :
    exec (.ldBVx x) s = .next (haltedBy .addressOutOfRange (some (encode (.ldBVx x))) s) := by
  have hnone : s.writeBlock (s.effAddr 0) (bcdDigits (s.getV x)) = none :=
    (State.writeBlock_eq_none _ _ _).mpr (inBounds_effAddr_eq_false h)
  simp only [exec, execLdBVx, hnone, haltAt_eq]

theorem exec_ldMemVx_outOfRange {x : Nibble} {s : State} (h : 0xFFF < s.effAddr x.toNat) :
    exec (.ldMemVx x) s = .next (haltedBy .addressOutOfRange (some (encode (.ldMemVx x))) s) := by
  have hnone : s.writeBlock (s.effAddr 0) (s.regsUpTo x) = none := by
    rw [State.writeBlock_eq_none, State.regsUpTo_length]
    exact inBounds_effAddr_eq_false h
  simp only [exec, execLdMemVx, hnone, haltAt_eq]

theorem exec_ldVxMem_outOfRange {x : Nibble} {s : State} (h : 0xFFF < s.effAddr x.toNat) :
    exec (.ldVxMem x) s = .next (haltedBy .addressOutOfRange (some (encode (.ldVxMem x))) s) := by
  have hnone : s.readBlock (s.effAddr 0) (x.toNat + 1) = none :=
    (State.readBlock_eq_none _ _ _).mpr (inBounds_effAddr_eq_false h)
  simp only [exec, execLdVxMem, hnone, haltAt_eq]

/-- The last row of a sprite with a row is row n - 1. -/
theorem exec_drw_outOfRange {x y n : Nibble} {s : State} (hn : 0 < n.toNat) (h : 0xFFF < s.effAddr (n.toNat - 1)) :
    exec (.drw x y n) s = .next (haltedBy .addressOutOfRange (some (encode (.drw x y n))) s) := by
  have hnone : s.readBlock (s.effAddr 0) n.toNat = none := by
    rw [State.readBlock_eq_none, ← Nat.sub_add_cancel hn]
    exact inBounds_effAddr_eq_false h
  simp only [exec, execDrw, hnone, haltAt_eq]

/-- Settles O49: each of the four checks its whole block before it writes. -/
theorem outOfRangeAccessHalts : Obligations.OutOfRangeAccessHalts := by
  intro x y n s
  refine ⟨exec_ldBVx_outOfRange, fun h => ⟨?_, ?_⟩, exec_drw_outOfRange⟩
  · exact exec_ldMemVx_outOfRange h
  · exact exec_ldVxMem_outOfRange h

/-! ### Only the stores write memory (20_memory.md R62) -/

theorem writes_byte {s : State} {i : Instr} {a : Nat} (h : Laws.writes s i (.byte a)) :
    ((∃ x, i = .ldBVx x) ∧ s.i.toNat ≤ a ∧ a ≤ s.i.toNat + 2) ∨
    (∃ x, i = .ldMemVx x ∧ s.i.toNat ≤ a ∧ a ≤ s.i.toNat + x.toNat) := by
  cases i with
  | ldBVx x =>
    obtain ⟨b, hb, hlow, hhigh⟩ := h
    obtain rfl := Part.byte.inj hb
    exact .inl ⟨⟨x, rfl⟩, hlow, by omega⟩
  | ldMemVx x =>
    obtain ⟨b, hb, hlow, hhigh⟩ | ⟨-, hindex⟩ := h
    · obtain rfl := Part.byte.inj hb
      exact .inr ⟨x, rfl, hlow, by omega⟩
    · cases hindex
  | _ => simp [Laws.writes] at h

/-- Settles O18: each byte of memory is one part. -/
theorem onlyStoresWriteMemory : Obligations.OnlyStoresWriteMemory := by
  intro i s t a h hbyte
  exact writes_byte (Laws.exec_writes i s t h (.byte a) hbyte nofun)

/-! ### The stores in range (42_index_memory.md R174, R175) -/

theorem exec_ldBVx_inRange {x : Nibble} {s : State} (h : s.effAddr 2 ≤ 0xFFF) :
    exec (.ldBVx x) s = .next ((s.putBytes s.i.toNat (bcdDigits (s.getV x))).advance.finish false) := by
  have hsome : s.writeBlock (s.effAddr 0) (bcdDigits (s.getV x)) = some (s.putBytes s.i.toNat (bcdDigits (s.getV x))) :=
    (State.writeBlock_eq_some _ _ _ _).mpr ⟨(inBounds_effAddr_iff s 2).mpr h, rfl⟩
  simp only [exec, execLdBVx, hsome, complete]

theorem exec_ldMemVx_inRange {x : Nibble} {s : State} (h : s.effAddr x.toNat ≤ 0xFFF) :
    exec (.ldMemVx x) s = .next (((s.putBytes s.i.toNat (s.regsUpTo x)).stepIndex x).advance.finish false) := by
  have hsome : s.writeBlock (s.effAddr 0) (s.regsUpTo x) = some (s.putBytes s.i.toNat (s.regsUpTo x)) := by
    rw [State.writeBlock_eq_some, State.regsUpTo_length]
    exact ⟨(inBounds_effAddr_iff s x.toNat).mpr h, rfl⟩
  simp only [exec, execLdMemVx, hsome, complete]

/-- Memory holds a block that was written inside it (20_memory.md R69). -/
theorem putBytes_holds (s : State) {a : Nat} {bs : List Byte} (h : a + bs.length ≤ 0x1000) : Holds (s.putBytes a bs) a bs := by
  intro k b hk
  obtain ⟨hlt, -⟩ := List.getElem?_eq_some_iff.mp hk
  have hin : a + k ≤ 0xFFF := by omega
  simp [State.memRead_eq, State.putBytes_byteAt, hin, hk]

/-- Fx33 leaves the digits of V[x] at I. -/
theorem exec_ldBVx_holds {x : Nibble} {s : State} (h : s.effAddr 2 ≤ 0xFFF) :
    ∃ t, exec (.ldBVx x) s = .next t ∧ Holds t s.i.toNat (bcdDigits (s.getV x)) := by
  refine ⟨_, exec_ldBVx_inRange h, fun k b hk => ?_⟩
  have hfit : s.i.toNat + (bcdDigits (s.getV x)).length ≤ 0x1000 := Nat.succ_le_succ h
  simpa using putBytes_holds s hfit k b hk

/-- Fx55 leaves V[0]..V[x] at I, the I before its optional step (decision D17). -/
theorem exec_ldMemVx_holds {x : Nibble} {s : State} (h : s.effAddr x.toNat ≤ 0xFFF) :
    ∃ t, exec (.ldMemVx x) s = .next t ∧ Holds t s.i.toNat (s.regsUpTo x) := by
  refine ⟨_, exec_ldMemVx_inRange h, fun k b hk => ?_⟩
  have hfit : s.i.toNat + (s.regsUpTo x).length ≤ 0x1000 := by
    rw [State.regsUpTo_length]
    exact Nat.succ_le_succ h
  simpa using putBytes_holds s hfit k b hk

/-! ### The fetch (20_memory.md R66, R77) -/

/-- What a data access reads at p and p + 1, a fetch reads at PC = p. -/
theorem jump_fetch16 {t : State} {p : Word} {hi lo : Byte} (hhi : t.memRead p.toNat = some hi)
    (hlo : t.memRead (p.toNat + 1) = some lo) : (t.jump p).fetch16 = some (opcodeOfBytes hi lo) := by
  rw [State.memRead_eq, Option.ite_none_right_eq_some] at hhi hlo
  obtain ⟨-, hhi⟩ := hhi
  obtain ⟨hin, hlo⟩ := hlo
  have hpc : p.toNat ≤ 0xFFE := by omega
  rw [State.fetch16_eq, State.jump_pc, if_pos hpc, State.jump_byteAt, State.jump_byteAt, Option.some.inj hhi,
    Option.some.inj hlo]

/-- Two neighbouring bytes of a block in memory are the opcode at the first. -/
theorem jump_fetch16_of_holds {t : State} {p : Word} {a k : Nat} {bs : List Byte} {hi lo : Byte} (h : Holds t a bs)
    (hp : p.toNat = a + k) (hhi : bs[k]? = some hi) (hlo : bs[k + 1]? = some lo) :
    (t.jump p).fetch16 = some (opcodeOfBytes hi lo) := by
  apply jump_fetch16
  · rw [hp]; exact h k hi hhi
  · rw [hp]; exact h (k + 1) lo hlo

theorem regsUpTo_getElem?_of_le (s : State) {x : Nibble} {j : Nat} (h : j ≤ x.toNat) :
    (s.regsUpTo x)[j]? = some (s.getV (BitVec.ofNat 4 j)) := by
  rw [State.regsUpTo_getElem?, if_pos h]

theorem ldMemVx_fetch16 {x : Nibble} {s : State} (h : s.effAddr x.toNat ≤ 0xFFF) :
    ∃ t, exec (.ldMemVx x) s = .next t ∧ ∀ j, j + 1 ≤ x.toNat →
      (t.jump (s.i + BitVec.ofNat 16 j)).fetch16
        = some (opcodeOfBytes (s.getV (BitVec.ofNat 4 j)) (s.getV (BitVec.ofNat 4 (j + 1)))) := by
  obtain ⟨t, hexec, hholds⟩ := exec_ldMemVx_holds h
  refine ⟨t, hexec, fun j hj => ?_⟩
  have hle : j ≤ x.toNat := Nat.le_of_succ_le hj
  exact jump_fetch16_of_holds hholds (index_add_toNat hle h) (regsUpTo_getElem?_of_le s hle) (regsUpTo_getElem?_of_le s hj)

theorem ldBVx_fetch16 {x : Nibble} {s : State} (hrange : s.effAddr 2 ≤ 0xFFF) :
    ∃ t h d o, exec (.ldBVx x) s = .next t ∧ (s.getV x).toNat = 100 * h + 10 * d + o ∧ d < 10 ∧ o < 10 ∧
      (t.jump s.i).fetch16 = some (opcodeOfBytes (BitVec.ofNat 8 h) (BitVec.ofNat 8 d)) ∧
      (t.jump (s.i + 1#16)).fetch16 = some (opcodeOfBytes (BitVec.ofNat 8 d) (BitVec.ofNat 8 o)) := by
  obtain ⟨t, hexec, hholds⟩ := exec_ldBVx_holds (x := x) hrange
  refine ⟨t, _, _, _, hexec, ?digits, ?tens, ?ones, jump_fetch16_of_holds hholds (k := 0) rfl rfl rfl,
    jump_fetch16_of_holds hholds (k := 1) (index_add_toNat (by decide) hrange) rfl rfl⟩
  case digits => omega
  case tens => exact Nat.mod_lt _ (by decide)
  case ones => exact Nat.mod_lt _ (by decide)

/-- Settles O50: a store leaves its bytes in memory, and a fetch reads the same memory as `memRead`. -/
theorem storedBytesAreFetched : Obligations.StoredBytesAreFetched :=
  ⟨fun _ _ _ _ => jump_fetch16, fun _ _ => ldMemVx_fetch16, fun _ _ => ldBVx_fetch16⟩

/-! ### A fetch above memory (60_exceptions.md R238) -/

theorem fetch16_eq_none {s : State} (h : 0xFFE < s.pc.toNat) : s.fetch16 = none := by
  rw [State.fetch16_eq, if_neg (Nat.not_le.mpr h)]

theorem step_of_fetch16_none {s : State} (hrun : s.status = .running) (hfetch : s.fetch16 = none) :
    step s = .next (haltedBy .addressOutOfRange none s) := by
  simp only [step, hrun, hfetch, halt, State.raiseHalt, haltedBy]

/-- Settles O7: above 0xFFE the two bytes of an opcode do not both lie in memory. -/
theorem fetchBeyondMemoryHalts : Obligations.FetchBeyondMemoryHalts := by
  intro s hrun hpc
  exact step_of_fetch16_none hrun (fetch16_eq_none hpc)

end Sys2Proof.Proofs
end

section
/-! SUPPORT. The decoder undoes the encoder (30_encoding.md R90-R97), and reads an opcode by the table's row that selects it. -/

namespace Sys2Proof.Proofs

/-! ### Both ways round -/

/-- By family: what the dispatch looks at, and what it keeps, are fields of the packed opcode. -/
theorem decodeOpcode_encode (i : Instr) : decodeOpcode (encode i) = some i := by
  cases i
  case jp | call | ldI | jpV0 | seImm | sneImm | ldImm | addImm | rnd | seReg | sneReg | drw =>
    simp [encode, decodeOpcode]
  case ldReg | orReg | andReg | xorReg | addReg | sub | shr | subn | shl => simp [encode, decodeOpcode, decodeFamily8]
  case cls | ret => simp [encode, decodeOpcode, decodeFamily0]
  case skp | sknp => simp [encode, decodeOpcode, decodeFamilyE]
  case ldVxDt | ldVxK | ldDtVx | ldStVx | addIVx | ldFVx | ldBVx | ldMemVx | ldVxMem =>
    simp [encode, decodeOpcode, decodeFamilyF]

/-- An opcode is its two bytes, high byte first (20_memory.md R66). -/
theorem opcodeOfBytes_extractLsb' (w : Word) : opcodeOfBytes (w.extractLsb' 8 8) (w.extractLsb' 0 8) = w := by
  rw [opcodeOfBytes, BitVec.extractLsb'_append_extractLsb'_eq_extractLsb' (by decide)]
  exact BitVec.extractLsb'_eq_self

theorem decode_cons_cons (hi lo : Byte) (rest : List Byte) {i : Instr} (h : decodeOpcode (opcodeOfBytes hi lo) = some i) :
    decode (hi :: lo :: rest) = .ok (i, rest) := by
  rw [decode, h]

/-- Settles O2: the two bytes put together again are the encoding, which decodes to its instruction. -/
theorem decodeOfEncode : Obligations.DecodeOfEncode := by
  intro i rest
  apply decode_cons_cons
  rw [opcodeOfBytes_extractLsb', decodeOpcode_encode]

/-- Settles O3: each field of an instruction is the opcode's own, and its fixed nibbles are those that the dispatch matched. -/
theorem encodeOfDecode : Obligations.EncodeOfDecode := fun _ _ => encode_of_decodeOpcode

/-- Settles O1: the decoder runs on the thirteen words. -/
theorem sampleWordsDecode : Obligations.SampleWordsDecode := by
  unfold Obligations.SampleWordsDecode
  decide

/-! ### What a row's mask and pattern fix of an opcode (30_encoding.md R97) -/

theorem opField_of_selects_F000 {m : String} {p w : Word} (h : (OpcodeRow.mk m p 0xF000#16).selects w = true) :
    opField w = opField p := by
  have hmask : w &&& 0xF000#16 = p := eq_of_beq h
  rw [← hmask, and_F000, opField_packNNN]

theorem fields_of_selects_F00F {m : String} {p w : Word} (h : (OpcodeRow.mk m p 0xF00F#16).selects w = true) :
    opField w = opField p ∧ nField w = nField p := by
  have hmask : w &&& 0xF00F#16 = p := eq_of_beq h
  rw [← hmask, and_F00F, opField_packXYN, nField_packXYN]
  exact ⟨rfl, rfl⟩

theorem fields_of_selects_F0FF {m : String} {p w : Word} (h : (OpcodeRow.mk m p 0xF0FF#16).selects w = true) :
    opField w = opField p ∧ kkField w = kkField p := by
  have hmask : w &&& 0xF0FF#16 = p := eq_of_beq h
  rw [← hmask, and_F0FF, opField_packXKK, kkField_packXKK]
  exact ⟨rfl, rfl⟩

/-! ### Decoding by rows -/

theorem decodeOpcode_of_opField_0 {w : Word} (hop : opField w = 0x0#4) : decodeOpcode w = decodeFamily0 w := by
  simp only [decodeOpcode, hop]

theorem decodeOpcode_of_opField_8 {w : Word} (hop : opField w = 0x8#4) : decodeOpcode w = decodeFamily8 w := by
  simp only [decodeOpcode, hop]

theorem decodeOpcode_of_opField_E {w : Word} (hop : opField w = 0xE#4) : decodeOpcode w = decodeFamilyE w := by
  simp only [decodeOpcode, hop]

theorem decodeOpcode_of_opField_F {w : Word} (hop : opField w = 0xF#4) : decodeOpcode w = decodeFamilyF w := by
  simp only [decodeOpcode, hop]

/-- An opcode that a row selects decodes to an instruction of that row: the row fixes what the dispatch matches. -/
theorem rowOf_decodeOpcode_of_selects {i : Instr} {w : Word} (h : (rowOf i).selects w = true) :
    (decodeOpcode w).map rowOf = some (rowOf i) := by
  cases i
  case cls | ret =>
    obtain ⟨hop, hkk⟩ := fields_of_selects_F0FF h
    rw [decodeOpcode_of_opField_0 hop, decodeFamily0, hkk]; rfl
  case ldReg | orReg | andReg | xorReg | addReg | sub | shr | subn | shl =>
    obtain ⟨hop, hn⟩ := fields_of_selects_F00F h
    rw [decodeOpcode_of_opField_8 hop, decodeFamily8, hn]; rfl
  case skp | sknp =>
    obtain ⟨hop, hkk⟩ := fields_of_selects_F0FF h
    rw [decodeOpcode_of_opField_E hop, decodeFamilyE, hkk]; rfl
  case ldVxDt | ldVxK | ldDtVx | ldStVx | addIVx | ldFVx | ldBVx | ldMemVx | ldVxMem =>
    obtain ⟨hop, hkk⟩ := fields_of_selects_F0FF h
    rw [decodeOpcode_of_opField_F hop, decodeFamilyF, hkk]; rfl
  all_goals
    have hop := opField_of_selects_F000 h
    rw [decodeOpcode, hop]; rfl

/-- An instruction's row stands in the table and selects its encoding (`Laws.EncodesItsRow`, one lemma per constructor). -/
theorem encodesItsRow : ∀ i, Laws.EncodesItsRow.Statement i
  | .cls x => Laws.EncodesItsRow.cls x
  | .ret x => Laws.EncodesItsRow.ret x
  | .jp nnn => Laws.EncodesItsRow.jp nnn
  | .call nnn => Laws.EncodesItsRow.call nnn
  | .seImm x kk => Laws.EncodesItsRow.seImm x kk
  | .sneImm x kk => Laws.EncodesItsRow.sneImm x kk
  | .seReg x y n => Laws.EncodesItsRow.seReg x y n
  | .ldImm x kk => Laws.EncodesItsRow.ldImm x kk
  | .addImm x kk => Laws.EncodesItsRow.addImm x kk
  | .ldReg x y => Laws.EncodesItsRow.ldReg x y
  | .orReg x y => Laws.EncodesItsRow.orReg x y
  | .andReg x y => Laws.EncodesItsRow.andReg x y
  | .xorReg x y => Laws.EncodesItsRow.xorReg x y
  | .addReg x y => Laws.EncodesItsRow.addReg x y
  | .sub x y => Laws.EncodesItsRow.sub x y
  | .shr x y => Laws.EncodesItsRow.shr x y
  | .subn x y => Laws.EncodesItsRow.subn x y
  | .shl x y => Laws.EncodesItsRow.shl x y
  | .sneReg x y n => Laws.EncodesItsRow.sneReg x y n
  | .ldI nnn => Laws.EncodesItsRow.ldI nnn
  | .jpV0 nnn => Laws.EncodesItsRow.jpV0 nnn
  | .rnd x kk => Laws.EncodesItsRow.rnd x kk
  | .drw x y n => Laws.EncodesItsRow.drw x y n
  | .skp x => Laws.EncodesItsRow.skp x
  | .sknp x => Laws.EncodesItsRow.sknp x
  | .ldVxDt x => Laws.EncodesItsRow.ldVxDt x
  | .ldVxK x => Laws.EncodesItsRow.ldVxK x
  | .ldDtVx x => Laws.EncodesItsRow.ldDtVx x
  | .ldStVx x => Laws.EncodesItsRow.ldStVx x
  | .addIVx x => Laws.EncodesItsRow.addIVx x
  | .ldFVx x => Laws.EncodesItsRow.ldFVx x
  | .ldBVx x => Laws.EncodesItsRow.ldBVx x
  | .ldMemVx x => Laws.EncodesItsRow.ldMemVx x
  | .ldVxMem x => Laws.EncodesItsRow.ldVxMem x

theorem rowOf_mem_opcodeTable (i : Instr) : rowOf i ∈ opcodeTable := (encodesItsRow i).2.1

theorem exists_rowOf_eq : ∀ r ∈ opcodeTable, ∃ i, rowOf i = r := by
  simp [opcodeTable]

/-- What decodes is the encoding of what it decodes to, so that instruction's row selects it. -/
theorem selects_of_decodeOpcode {w : Word} {i : Instr} (h : decodeOpcode w = some i) : (rowOf i).selects w = true :=
  encode_of_decodeOpcode h ▸ (encodesItsRow i).2.2

theorem decodeOpcode_eq_none_iff (w : Word) : decodeOpcode w = none ↔ ∀ r ∈ opcodeTable, r.selects w = false := by
  constructor
  · intro hnone r hr
    obtain ⟨i, rfl⟩ := exists_rowOf_eq r hr
    by_contra hsel
    have hrow := rowOf_decodeOpcode_of_selects (Bool.eq_true_of_not_eq_false hsel)
    rw [hnone] at hrow
    cases hrow
  · intro hrows
    by_contra hsome
    obtain ⟨i, hi⟩ := Option.ne_none_iff_exists'.mp hsome
    exact absurd (selects_of_decodeOpcode hi) (Bool.eq_false_iff.mp (hrows _ (rowOf_mem_opcodeTable i)))

/-- Settles O4: the row of what an opcode decodes to selects it, and an opcode that a row selects decodes. -/
theorem decodeFollowsTable : Obligations.DecodeFollowsTable :=
  fun w => ⟨fun _ => selects_of_decodeOpcode, decodeOpcode_eq_none_iff w⟩

/-- Settles O5: two rows of the table that select one opcode are both the row of what it decodes to. -/
theorem tableRowsAreDisjoint : Obligations.TableRowsAreDisjoint := by
  refine ⟨rfl, fun w r r' hr hr' h h' => ?_⟩
  obtain ⟨i, rfl⟩ := exists_rowOf_eq r hr
  obtain ⟨i', rfl⟩ := exists_rowOf_eq r' hr'
  apply Option.some.inj
  rw [← rowOf_decodeOpcode_of_selects h, ← rowOf_decodeOpcode_of_selects h']

end Sys2Proof.Proofs
end

section
/-! SUPPORT. The poll (30_encoding.md R104, R105): a running Machine always answers, by `exec` of what stands at PC or by a halt, and
every completed instruction ticks. -/

namespace Sys2Proof.Proofs

open Sys2Proof.Machine Sys2Proof.Safety

/-! ### The step by what the fetch reads -/

theorem fetch16_of_memRead {s : State} {hi lo : Byte} (hhi : s.memRead s.pc.toNat = some hi)
    (hlo : s.memRead (s.pc.toNat + 1) = some lo) : s.fetch16 = some (opcodeOfBytes hi lo) :=
  jump_fetch16 hhi hlo

theorem step_of_decodeOpcode_some {s : State} {w : Word} {i : Instr} (hrun : s.status = .running)
    (hfetch : s.fetch16 = some w) (hdecode : decodeOpcode w = some i) : step s = exec i s := by
  simp only [step, hrun, hfetch, hdecode]

theorem step_of_decodeOpcode_none {s : State} {w : Word} (hrun : s.status = .running)
    (hfetch : s.fetch16 = some w) (hdecode : decodeOpcode w = none) :
    step s = .next (haltedBy .unimplementedInstruction (some w) s) := by
  simp only [step, hrun, hfetch, hdecode, halt, State.raiseHalt, haltedBy]

theorem step_of_halted {s : State} {rec : ErrorRecord} (h : s.status = .halted rec) :
    step s = .refused .steppedWhileHalted := by
  simp only [step, h]

theorem decodeOpcode_of_decode {hi lo : Byte} {rest rest' : List Byte} {i : Instr}
    (h : decode (hi :: lo :: rest) = .ok (i, rest')) : decodeOpcode (opcodeOfBytes hi lo) = some i := by
  simp only [decode] at h
  split at h
  next j hdecode => cases h; exact hdecode
  · cases h

/-- Settles O6: the two bytes at PC are what the step fetches and decodes. -/
theorem stepRunsDecodedInstruction : Obligations.StepRunsDecodedInstruction := by
  intro s hi lo i hrun hhi hlo hdecode _
  exact step_of_decodeOpcode_some hrun (fetch16_of_memRead hhi hlo) (decodeOpcode_of_decode hdecode)

/-- Settles O8: what no row selects does not decode. -/
theorem unimplementedOpcodeHalts : Obligations.UnimplementedOpcodeHalts := by
  intro s hi lo hrun hhi hlo hrows
  exact step_of_decodeOpcode_none hrun (fetch16_of_memRead hhi hlo) ((decodeOpcode_eq_none_iff _).mpr hrows)

/-! ### Every poll of a running Machine answers -/

/-- Each way an arm can end, `complete`, `haltAt` or `hold`, is a next state. -/
theorem exists_exec_eq_next (i : Instr) (s : State) : ∃ t, exec i s = .next t := by
  cases i
  case ret | call | drw | skp | sknp | ldVxK | ldBVx | ldMemVx | ldVxMem =>
    simp only [exec, execRet, execCall, execDrw, execSkp, execSknp, execLdVxK, execLdBVx, execLdMemVx, execLdVxMem]
    split <;> exact ⟨_, rfl⟩
  all_goals exact ⟨_, rfl⟩

theorem exists_step_eq_next {s : State} (hrun : s.status = .running) : ∃ t, step s = .next t := by
  cases hfetch : s.fetch16 with
  | none => exact ⟨_, step_of_fetch16_none hrun hfetch⟩
  | some w =>
    cases hdecode : decodeOpcode w with
    | none => exact ⟨_, step_of_decodeOpcode_none hrun hfetch hdecode⟩
    | some i =>
      rw [step_of_decodeOpcode_some hrun hfetch hdecode]
      exact exists_exec_eq_next i s

/-- Settles O9: by STATUS, which is running or halted, so no step is left to fault. -/
theorem stepAnswers : Obligations.StepAnswers := by
  intro s
  refine ⟨exists_step_eq_next, fun rec => step_of_halted, fun f hfault => ?_⟩
  cases hstatus : s.status with
  | running =>
    obtain ⟨t, hnext⟩ := exists_step_eq_next hstatus
    rw [hnext] at hfault
    cases hfault
  | halted rec =>
    rw [step_of_halted hstatus] at hfault
    cases hfault

/-! ### Every completed instruction ticks -/

/-- Whether DISP_CHANGED is 1 after the instruction completes (decision D21). -/
def changesDisplay : Instr → Bool
  | .cls _ | .drw _ _ _ => true
  | _ => false

/-- What the tick finds in DT: Fx15 has written it, every other instruction has left it. -/
def dtBeforeTick (s : State) : Instr → Byte
  | .ldDtVx x => s.getV x
  | _ => s.dt

/-- What the tick finds in ST: Fx18 has written it, every other instruction has left it. -/
def stBeforeTick (s : State) : Instr → Byte
  | .ldStVx x => s.getV x
  | _ => s.st

theorem changesDisplay_iff (i : Instr) : changesDisplay i = true ↔ (∃ x, i = .cls x) ∨ ∃ x y n, i = .drw x y n := by
  cases i <;> simp [changesDisplay]

/-- Of the three ways to end, a completed instruction has neither held nor halted, so it has finished. -/
theorem ended_of_completes {i : Instr} {s t : State} (h : Completes i s t) :
    Ended (changesDisplay i) (dtBeforeTick s i) (stBeforeTick s i) t := by
  obtain ⟨-, hexec, hrun, hnoHold⟩ := h
  obtain ⟨-, hwait⟩ | ⟨r, rfl⟩ | ⟨s', drew, rfl, -, -, -, hdrew, hst, hdt, -⟩ := Laws.exec_cases i s t hexec
  · exact absurd hwait hnoHold
  · cases hrun
  · have hdisp : drew = changesDisplay i := Bool.eq_iff_iff.mpr (hdrew.trans (changesDisplay_iff i).symm)
    have hdtTick : s'.dt = dtBeforeTick s i := hdt.trans (by cases i <;> rfl)
    have hstTick : s'.st = stBeforeTick s i := hst.trans (by cases i <;> rfl)
    rw [← hdisp, ← hdtTick, ← hstTick]
    exact s'.finish_ended drew

/-- Settles O12: the four clauses read off what the tick finds for each form. -/
theorem everyCompletionTicks : Obligations.EveryCompletionTicks := by
  intro i s t h
  have hended := ended_of_completes h
  refine ⟨?fx15, ?fx18, ?display, ?others⟩
  case fx15 => rintro x rfl; exact hended
  case fx18 => rintro x rfl; exact hended
  case display => rintro (⟨x, rfl⟩ | ⟨x, y, n, rfl⟩) <;> exact hended
  case others =>
    intro hdt hst hcls hdrw
    cases i with
    | ldDtVx x => exact absurd rfl (hdt x)
    | ldStVx x => exact absurd rfl (hst x)
    | cls x => exact absurd rfl (hcls x)
    | drw x y n => exact absurd rfl (hdrw x y n)
    | _ => exact hended

end Sys2Proof.Proofs
end

section
/-! SUPPORT. Control transfer and skips (40_flow.md): each form is one write of PC, for CALL and RET with a push or a pop before it. -/

namespace Sys2Proof.Proofs

open Sys2Proof.Machine Sys2Proof.Safety

/-! ### Jumps (40_flow.md R122, R128) -/

@[simp] theorem zextAddr_toNat (nnn : Addr) : (zextAddr nnn).toNat = nnn.toNat :=
  BitVec.toNat_setWidth_of_le (by decide)

@[simp] theorem zextByte_toNat (b : Byte) : (zextByte b).toNat = b.toNat :=
  BitVec.toNat_setWidth_of_le (by decide)

/-- A 12-bit address and a byte add up below 2^16, so the sum of JP V0 is exact (decision D23). -/
theorem zextAddr_add_zextByte_toNat (nnn : Addr) (b : Byte) :
    (zextAddr nnn + zextByte b).toNat = nnn.toNat + b.toNat := by
  have hnnn := nnn.isLt
  have hb := b.isLt
  rw [BitVec.toNat_add, zextAddr_toNat, zextByte_toNat]
  omega

/-- Settles O29: both forms write PC alone. -/
theorem jumpsSetPc : Obligations.JumpsSetPc := by
  intro nnn s
  constructor
  · exact ⟨_, rfl, zextAddr_toNat nnn, Laws.exec_keeps (.jp nnn) s _ rfl rfl⟩
  · exact ⟨_, rfl, zextAddr_add_zextByte_toNat nnn _, Laws.exec_keeps (.jpV0 nnn) s _ rfl rfl⟩

/-! ### Push and pop (10_state.md R38, decision D8) -/

/-- With room, a push writes the free entry and counts it. -/
theorem exists_push_eq_some {s : State} (w : Word) (room : s.sp.val < 16) :
    ∃ s', s.push w = some s' ∧ s'.stack[s.sp.val] = w ∧ s'.sp.val = s.sp.val + 1 ∧
      Keeps (fun p => p = .sp ∨ p = .stackEntry ⟨s.sp.val, room⟩) s s' := by
  refine ⟨_, dif_pos room, Vector.getElem_set_self _, rfl, fun p hp => ?_⟩
  cases p with
  | sp => exact absurd (.inl rfl) hp
  | stackEntry j =>
    have hne : s.sp.val ≠ j.val := fun h => hp (.inr (congrArg Part.stackEntry (Fin.ext h.symm)))
    exact Vector.getElem_set_ne room j.isLt hne
  | _ => rfl

/-- A pop of a stack in use gives its top entry and uncounts it; the entry stays. -/
theorem exists_pop_eq_some {s : State} {top : Fin 16} (h : s.sp.val = top.val + 1) :
    ∃ s', s.pop = some (s.stack[top], s') ∧ s'.sp.val = top.val ∧ Keeps (fun p => p = .sp) s s' := by
  have hne : s.sp.val ≠ 0 := by omega
  have htop : s.sp.val - 1 = top.val := by omega
  refine ⟨{ s with sp := top.castSucc }, ?_, rfl, fun p hp => ?_⟩
  · rw [State.pop, dif_neg hne]
    simp only [htop]
    rfl
  · cases p with
    | sp => exact absurd rfl hp
    | _ => rfl

/-! ### CALL and RET (40_flow.md R121, R123) -/

/-- Neither a write of PC nor the end of an instruction reaches a part. -/
theorem keeps_jump_finish {touched : Part → Prop} {s s' : State} (h : Keeps touched s s') (w : Word) (drew : Bool) :
    Keeps touched s ((s'.jump w).finish drew) := by
  intro p hp
  cases p <;> exact h _ hp

theorem exec_call_of_push {nnn : Addr} {s s' : State} (h : s.push (s.pc + 2#16) = some s') :
    exec (.call nnn) s = .next ((s'.jump (zextAddr nnn)).finish false) := by
  simp only [exec, execCall, h, complete]

theorem exec_ret_of_pop {x : Nibble} {s s' : State} {target : Word} (h : s.pop = some (target, s')) :
    exec (.ret x) s = .next ((s'.jump target).finish false) := by
  simp only [exec, execRet, h, complete]

/-- Settles O30: a push, then a jump. -/
theorem callPushesReturnAddress : Obligations.CallPushesReturnAddress := by
  intro nnn s room
  obtain ⟨s', hpush, hentry, hsp, hkeeps⟩ := exists_push_eq_some (s.pc + 2#16) room
  exact ⟨_, exec_call_of_push hpush, hentry, hsp, zextAddr_toNat nnn, keeps_jump_finish hkeeps _ _⟩

/-- Settles O31: a pop, then a jump to what it gave. -/
theorem retPopsReturnAddress : Obligations.RetPopsReturnAddress := by
  intro x s top htop
  obtain ⟨s', hpop, hsp, hkeeps⟩ := exists_pop_eq_some htop
  exact ⟨_, exec_ret_of_pop hpop, hsp, rfl, keeps_jump_finish hkeeps _ _⟩

/-- Settles O32: the push of CALL fails on a full stack, the pop of RET on an empty one. -/
theorem stackLimitsHalt : Obligations.StackLimitsHalt := by
  intro nnn x s
  constructor
  · intro hfull
    have hpush : s.push (s.pc + 2#16) = none := (State.push_eq_none _ _).mpr hfull
    simp only [exec, execCall, hpush, haltAt_eq]
  · intro hempty
    have hpop : s.pop = none := (State.pop_eq_none _).mpr hempty
    simp only [exec, execRet, hpop, haltAt_eq]

/-- Settles O33: the entry that RET pops (O31) is the one that CALL pushed (O30). -/
theorem callThenRetReturns : Obligations.CallThenRetReturns := by
  intro nnn x s room
  obtain ⟨t, hcall, hpushed, hcount, -, -⟩ := callPushesReturnAddress nnn s room
  refine ⟨t, hcall, fun u hsp hentry => ?_⟩
  have htop : u.sp.val = s.sp.val + 1 := by rw [hsp, hcount]
  obtain ⟨v, hret, hvsp, hvpc, -⟩ := retPopsReturnAddress x u ⟨s.sp.val, room⟩ htop
  exact ⟨v, hret, hvpc.trans (hentry.trans hpushed), Fin.ext hvsp⟩

/-! ### Skips (40_flow.md R120, R124-R127) -/

theorem opField_of_and_F000 {w p : Word} (h : w &&& 0xF000#16 = p) : opField w = opField p := by
  rw [← h, and_F000, opField_packNNN]

theorem decodeOpcode_of_and_3000 {w : Word} (h : w &&& 0xF000#16 = 0x3000#16) :
    decodeOpcode w = some (.seImm (xField w) (kkField w)) := by
  have hop : opField w = 0x3#4 := opField_of_and_F000 h
  simp only [decodeOpcode, hop]

theorem decodeOpcode_of_and_4000 {w : Word} (h : w &&& 0xF000#16 = 0x4000#16) :
    decodeOpcode w = some (.sneImm (xField w) (kkField w)) := by
  have hop : opField w = 0x4#4 := opField_of_and_F000 h
  simp only [decodeOpcode, hop]

/-- A form that skips on the condition `c` and writes no part: pc + 4 when `c` holds, else pc + 2 (decision D9). -/
theorem exec_of_skipIf {i : Instr} {s : State} {c : Bool} (h : exec i s = complete false (s.skipIf c))
    (hwrites : Laws.writes s i = nothing) :
    ∃ t, exec i s = .next t ∧ t.pc = (if c then s.pc + 4#16 else s.pc + 2#16) ∧ Keeps nothing s t :=
  ⟨_, h, rfl, hwrites ▸ Laws.exec_keeps i s _ h rfl⟩

/-- A form that skips if two bytes are equal. -/
theorem exec_of_skipIf_beq {i : Instr} {s : State} {a b : Byte} (h : exec i s = complete false (s.skipIf (a == b)))
    (hwrites : Laws.writes s i = nothing) :
    ∃ t, exec i s = .next t ∧ t.pc = (if a = b then s.pc + 4#16 else s.pc + 2#16) ∧ Keeps nothing s t := by
  simpa using exec_of_skipIf h hwrites

/-- A form that skips if two bytes differ. -/
theorem exec_of_skipIf_bne {i : Instr} {s : State} {a b : Byte} (h : exec i s = complete false (s.skipIf (a != b)))
    (hwrites : Laws.writes s i = nothing) :
    ∃ t, exec i s = .next t ∧ t.pc = (if a = b then s.pc + 2#16 else s.pc + 4#16) ∧ Keeps nothing s t := by
  simpa using exec_of_skipIf h hwrites

/-- Settles O34: V[x] is compared with kk. -/
theorem immediateSkips : Obligations.ImmediateSkips := by
  refine ⟨fun _ => decodeOpcode_of_and_3000, fun _ => decodeOpcode_of_and_4000, fun x kk s => ⟨?_, ?_⟩⟩
  · exact exec_of_skipIf_beq rfl rfl
  · exact exec_of_skipIf_bne rfl rfl

/-- Settles O35: V[x] is compared with V[y], and `n` is not read (decision D10). -/
theorem registerSkips : Obligations.RegisterSkips := by
  intro x y n s
  constructor
  · exact exec_of_skipIf_beq rfl rfl
  · exact exec_of_skipIf_bne rfl rfl

end Sys2Proof.Proofs
end

section
/-! SUPPORT. Register loads and arithmetic (41_alu.md): each form ends in one write of V[x]; 8xy4-8xyE write VF before it, and what they
read after that is the new VF (41_alu.md R141, decision D11). -/

namespace Sys2Proof.Proofs

open Sys2Proof.Machine Sys2Proof.Safety

/-! ### One register write -/

/-- A form that ends by writing `b` to V[x] in a state `u` that has PC and STATUS of `s`: every other register is that of `u`. -/
theorem exec_of_writeReg {i : Instr} {s u : State} {x : Nibble} {b : Byte} {touched : Part → Prop}
    (h : exec i s = writeReg x b u) (hpc : u.pc = s.pc) (hstatus : u.status = s.status) (hwrites : Laws.writes s i = touched) :
    ∃ t, exec i s = .next t ∧ t.getV x = b ∧ (∀ r, r ≠ x → t.getV r = u.getV r) ∧ t.pc = s.pc + 2#16 ∧ Keeps touched s t := by
  refine ⟨_, h, ?value, fun r hr => ?others, congrArg (· + 2#16) hpc, hwrites ▸ Laws.exec_keeps i s _ h hstatus⟩
  case value => rw [State.finish_getV, State.advance_getV, State.setV_getV, if_pos rfl]
  case others => rw [State.finish_getV, State.advance_getV, State.setV_getV, if_neg hr]

/-- A form that writes `b` to V[x] and no other part. -/
theorem exec_of_writeReg_only {i : Instr} {s : State} {x : Nibble} {b : Byte} (h : exec i s = writeReg x b s)
    (hwrites : Laws.writes s i = fun p => p = .reg x) :
    ∃ t, exec i s = .next t ∧ t.getV x = b ∧ t.pc = s.pc + 2#16 ∧ Keeps (fun p => p = .reg x) s t := by
  obtain ⟨t, hexec, hval, -, hpc, hkeeps⟩ := exec_of_writeReg h rfl rfl hwrites
  exact ⟨t, hexec, hval, hpc, hkeeps⟩

/-- A form that writes the flag to VF, then `b` to V[x]: the flag stays unless V[x] is VF. -/
theorem exec_of_writeReg_flag {i : Instr} {s : State} {x : Nibble} {b flag : Byte} (h : exec i s = writeReg x b (s.setV vf flag))
    (hwrites : Laws.writes s i = fun p => p = .reg x ∨ p = .reg vf) :
    ∃ t, exec i s = .next t ∧ t.getV x = b ∧ (x ≠ vf → t.getV vf = flag) ∧ t.pc = s.pc + 2#16 ∧
      Keeps (fun p => p = .reg x ∨ p = .reg vf) s t := by
  obtain ⟨t, hexec, hval, hothers, hpc, hkeeps⟩ := exec_of_writeReg h rfl rfl hwrites
  refine ⟨t, hexec, hval, fun hx => ?_, hpc, hkeeps⟩
  rw [hothers vf hx.symm, State.setV_getV, if_pos rfl]

/-! ### Loads and bitwise operations (41_alu.md R142-R147) -/

theorem decodeOpcode_of_and_6000 {w : Word} (h : w &&& 0xF000#16 = 0x6000#16) :
    decodeOpcode w = some (.ldImm (xField w) (kkField w)) := by
  have hop : opField w = 0x6#4 := opField_of_and_F000 h
  simp only [decodeOpcode, hop]

theorem decodeOpcode_of_and_7000 {w : Word} (h : w &&& 0xF000#16 = 0x7000#16) :
    decodeOpcode w = some (.addImm (xField w) (kkField w)) := by
  have hop : opField w = 0x7#4 := opField_of_and_F000 h
  simp only [decodeOpcode, hop]

theorem decodeOpcode_of_and_8000 {w : Word} (h : w &&& 0xF00F#16 = 0x8000#16) :
    decodeOpcode w = some (.ldReg (xField w) (yField w)) := by
  have hrow : (rowOf (.ldReg 0 0)).selects w = true := beq_iff_eq.mpr h
  obtain ⟨hop, hn⟩ : opField w = 0x8#4 ∧ nField w = 0x0#4 := fields_of_selects_F00F hrow
  simp only [decodeOpcode_of_opField_8 hop, decodeFamily8, hn]

/-- Settles O36: three decodings, and one register write each. -/
theorem registerLoads : Obligations.RegisterLoads := by
  refine ⟨fun _ => decodeOpcode_of_and_6000, fun _ => decodeOpcode_of_and_7000, fun _ => decodeOpcode_of_and_8000,
    fun x y kk s => ⟨exec_of_writeReg_only rfl rfl, ?addImm, exec_of_writeReg_only rfl rfl⟩⟩
  obtain ⟨t, hexec, hval, hframe⟩ := exec_of_writeReg_only (i := .addImm x kk) (s := s) rfl rfl
  exact ⟨t, hexec, hval ▸ BitVec.toNat_add _ _, hframe⟩

/-- Settles O37: each form writes V[x] alone (decision D12), and its value is taken bit by bit. -/
theorem bitwiseOperations : Obligations.BitwiseOperations := by
  intro x y s
  refine ⟨?or, ?and, ?xor⟩
  case or =>
    obtain ⟨t, hexec, hval, hframe⟩ := exec_of_writeReg_only (i := .orReg x y) (s := s) rfl rfl
    exact ⟨t, hexec, fun _ => hval ▸ BitVec.getLsbD_or, hframe⟩
  case and =>
    obtain ⟨t, hexec, hval, hframe⟩ := exec_of_writeReg_only (i := .andReg x y) (s := s) rfl rfl
    exact ⟨t, hexec, fun _ => hval ▸ BitVec.getLsbD_and, hframe⟩
  case xor =>
    obtain ⟨t, hexec, hval, hframe⟩ := exec_of_writeReg_only (i := .xorReg x y) (s := s) rfl rfl
    exact ⟨t, hexec, fun _ => hval ▸ BitVec.getLsbD_xor, hframe⟩

/-! ### Sum and differences (41_alu.md R148, R149, R151) -/

theorem flagByte_carryFlag (a b : Byte) :
    flagByte (carryFlag a b) = if 255 < a.toNat + b.toNat then 0x01#8 else 0x00#8 := by
  simp only [flagByte, carryFlag, gt_iff_lt, decide_eq_true_eq]

theorem flagByte_notBorrowFlag (minuend subtrahend : Byte) :
    flagByte (notBorrowFlag minuend subtrahend) = if subtrahend.toNat < minuend.toNat then 0x01#8 else 0x00#8 := by
  simp only [flagByte, notBorrowFlag, gt_iff_lt, decide_eq_true_eq]

/-- Settles O38: both operands are read before the carry is written, and the sum is written last. -/
theorem addSetsCarry : Obligations.AddSetsCarry := by
  intro x y s
  obtain ⟨t, hexec, hval, hflag, hframe⟩ := exec_of_writeReg_flag (i := .addReg x y) (s := s) rfl rfl
  exact ⟨t, hexec, hval ▸ BitVec.toNat_add _ _, fun hx => (hflag hx).trans (flagByte_carryFlag _ _), hframe⟩

/-- SUB and SUBN with V[m] as the minuend and V[n] as the subtrahend: where one of them is VF, the flag just written stands for it. -/
theorem exec_of_difference {i : Instr} {s : State} {x m n : Nibble} {flag : Byte}
    (h : exec i s = writeReg x ((s.setV vf flag).getV m - (s.setV vf flag).getV n) (s.setV vf flag))
    (hwrites : Laws.writes s i = fun p => p = .reg x ∨ p = .reg vf) :
    ∃ t, exec i s = .next t ∧
      (m ≠ vf → n ≠ vf → t.getV x = s.getV m - s.getV n) ∧
      (m ≠ vf → n = vf → t.getV x = s.getV m - flag) ∧
      (m = vf → n ≠ vf → t.getV x = flag - s.getV n) ∧
      (m = vf → n = vf → t.getV x = 0x00#8) ∧
      (x ≠ vf → t.getV vf = flag) ∧ t.pc = s.pc + 2#16 ∧ Keeps (fun p => p = .reg x ∨ p = .reg vf) s t := by
  obtain ⟨t, hexec, hval, hframe⟩ := exec_of_writeReg_flag h hwrites
  rw [State.setV_getV, State.setV_getV] at hval
  refine ⟨t, hexec, fun hm hn => ?neither, fun hm hn => ?subtrahend, fun hm hn => ?minuend, fun hm hn => ?both, hframe⟩
  case neither => rw [hval, if_neg hm, if_neg hn]
  case subtrahend => rw [hval, if_neg hm, if_pos hn]
  case minuend => rw [hval, if_pos hm, if_neg hn]
  case both => rw [hval, if_pos hm, if_pos hn, BitVec.sub_self]

/-- Settles O39: the minuend is V[x], the subtrahend V[y]. -/
theorem subSetsNotBorrow : Obligations.SubSetsNotBorrow := by
  intro x y s flag hflag
  obtain rfl := hflag.trans (flagByte_notBorrowFlag _ _).symm
  exact exec_of_difference rfl rfl

/-- Settles O40: the minuend is V[y], the subtrahend V[x], so the two mixed placings of VF change places. -/
theorem subnSetsNotBorrow : Obligations.SubnSetsNotBorrow := by
  intro x y s flag hflag
  obtain rfl := hflag.trans (flagByte_notBorrowFlag _ _).symm
  obtain ⟨t, hexec, hneither, hsubtrahend, hminuend, hboth, hframe⟩ :=
    exec_of_difference (i := .subn x y) (s := s) (m := y) (n := x) rfl rfl
  exact ⟨t, hexec, fun hx hy => hneither hy hx, fun hx hy => hminuend hy hx, fun hx hy => hsubtrahend hy hx,
    fun hx hy => hboth hy hx, hframe⟩

/-! ### Shifts (41_alu.md R150, R152) -/

theorem flagByte_toNat (c : Bool) : (flagByte c).toNat = c.toNat := by
  cases c <;> rfl

/-- The bit that 8xy6 shifts out. -/
theorem flagByte_shrFlag_toNat (b : Byte) : (flagByte (shrFlag b)).toNat = b.toNat % 2 := by
  rw [flagByte_toNat, shrFlag, BitVec.getLsbD, Nat.toNat_testBit, Nat.pow_zero, Nat.div_one]

/-- The bit that 8xyE shifts out. -/
theorem flagByte_shlFlag_toNat (b : Byte) : (flagByte (shlFlag b)).toNat = b.toNat / 128 := by
  have hb := b.isLt
  rw [flagByte_toNat, shlFlag, BitVec.getLsbD, Nat.toNat_testBit]
  omega

theorem ushiftRight_one_toNat (b : Byte) : (b >>> 1).toNat = b.toNat / 2 := by
  rw [BitVec.toNat_ushiftRight, Nat.shiftRight_one]

theorem shiftLeft_one_toNat (b : Byte) : (b <<< 1).toNat = b.toNat * 2 % 256 := by
  rw [BitVec.toNat_shiftLeft, Nat.shiftLeft_eq, Nat.pow_one]

/-- Settles O41: with x = F the byte shifted is the flag, 0 or 1: to the right it gives 0, to the left twice the flag. -/
theorem shiftsByOne : Obligations.ShiftsByOne := by
  intro x y s
  refine ⟨?shr, ?shl⟩
  case shr =>
    obtain ⟨t, hexec, hval, hflag, hframe⟩ := exec_of_writeReg_flag (i := .shr x y) (s := s) rfl rfl
    rw [State.setV_getV] at hval
    refine ⟨t, hexec, fun hx => ⟨?_, ?_⟩, ?_, hframe⟩
    · rw [hval, if_neg hx, ushiftRight_one_toNat]
    · rw [hflag hx, flagByte_shrFlag_toNat]
    · rintro rfl
      refine BitVec.eq_of_toNat_eq ?_
      rw [hval, if_pos rfl, ushiftRight_one_toNat, flagByte_shrFlag_toNat]
      exact Nat.div_eq_of_lt (Nat.mod_lt _ (by decide))
  case shl =>
    obtain ⟨t, hexec, hval, hflag, hframe⟩ := exec_of_writeReg_flag (i := .shl x y) (s := s) rfl rfl
    rw [State.setV_getV] at hval
    refine ⟨t, hexec, fun hx => ⟨?_, ?_⟩, ?_, hframe⟩
    · rw [hval, if_neg hx, shiftLeft_one_toNat]
    · rw [hflag hx, flagByte_shlFlag_toNat]
    · rintro rfl
      have hvf := (s.getV vf).isLt
      rw [hval, if_pos rfl, shiftLeft_one_toNat, flagByte_shlFlag_toNat]
      omega

/-! ### The random byte (41_alu.md R153) -/

/-- Settles O42: whatever byte is drawn, the mask clears every bit outside `kk`. -/
theorem randomIsMasked : Obligations.RandomIsMasked := by
  intro x kk s
  obtain ⟨t, hexec, hval, -, hframe⟩ := exec_of_writeReg (i := .rnd x kk) (s := s) (u := s.takeDraw) rfl rfl rfl rfl
  have hmask : t.getV x &&& ~~~kk = 0x00#8 := by
    rw [hval, BitVec.and_assoc, BitVec.and_not_self]
    exact BitVec.and_zero
  exact ⟨t, hexec, hval, hmask, hframe⟩

end Sys2Proof.Proofs
end

section
/-! SUPPORT. The index register and memory transfers (42_index_memory.md): three forms that write I, the two stores, and the block
load, each with its frame. -/

namespace Sys2Proof.Proofs

open Sys2Proof.Machine Sys2Proof.Safety

/-! ### Writing I (42_index_memory.md R171-R173) -/

theorem decodeOpcode_of_and_A000 {w : Word} (h : w &&& 0xF000#16 = 0xA000#16) : decodeOpcode w = some (.ldI (nnnField w)) := by
  have hop : opField w = 0xA#4 := opField_of_and_F000 h
  simp only [decodeOpcode, hop]

/-- Settles O43: a zero-extended address keeps its value. -/
theorem loadIndex : Obligations.LoadIndex :=
  ⟨fun _ => decodeOpcode_of_and_A000, fun nnn s =>
    ⟨_, rfl, zextAddr_toNat nnn, rfl, Laws.exec_keeps (.ldI nnn) s _ rfl rfl⟩⟩

theorem add_zextByte_toNat (i : Word) (b : Byte) : (i + zextByte b).toNat = (i.toNat + b.toNat) % 65536 := by
  rw [BitVec.toNat_add, zextByte_toNat]

theorem flagByte_indexFlag (threshold i : Word) (b : Byte) :
    flagByte (indexFlag threshold i b) = if threshold.toNat < i.toNat + b.toNat then 0x01#8 else 0x00#8 := by
  simp only [flagByte, indexFlag, gt_iff_lt, decide_eq_true_eq]

/-- Settles O44: V[x] is read before VF is written, so x = F adds the old VF; the flag compares the exact sum (decision D16). -/
theorem addIndexSetsFlag : Obligations.AddIndexSetsFlag := by
  intro x s
  refine ⟨_, rfl, add_zextByte_toNat s.i (s.getV x), ?flag, rfl, Laws.exec_keeps (.addIVx x) s _ rfl rfl⟩
  case flag =>
    rw [State.finish_getV, State.advance_getV, State.setV_getV, if_pos rfl, flagByte_indexFlag]

/-- The mask of Fx29 leaves the low nibble (decision D5). -/
theorem and_0F_toNat (b : Byte) : (b &&& 0x0F#8).toNat = b.toNat % 16 := by
  rw [BitVec.toNat_and]
  exact Nat.and_two_pow_sub_one_eq_mod b.toNat 4

/-- A 12-bit FONT_BASE and the offset of a glyph add up below 2^16. -/
theorem glyphAddr_toNat (s : State) (b : Byte) :
    (s.glyphAddr b).toNat = s.params.fontBase.toNat + 5 * (b.toNat % 16) := by
  have hbase := s.params.fontBase.isLt
  have hdigit : b.toNat % 16 < 16 := Nat.mod_lt _ (by decide)
  have hfive : (5#16).toNat = 5 := rfl
  rw [State.glyphAddr, BitVec.toNat_add, BitVec.toNat_mul, zextAddr_toNat, zextByte_toNat, and_0F_toNat, hfive]
  omega

/-- Settles O45: the address of a glyph is exact. -/
theorem glyphAddress : Obligations.GlyphAddress := fun x s =>
  ⟨_, rfl, glyphAddr_toNat s (s.getV x), rfl, Laws.exec_keeps (.ldFVx x) s _ rfl rfl⟩

/-! ### The stores (42_index_memory.md R174, R175) -/

/-- Settles O46: the block stored is the three digits, and it is all that is written. -/
theorem bcdStoresDigits : Obligations.BcdStoresDigits := by
  intro x s hrange
  obtain ⟨t, hexec, hholds⟩ := exec_ldBVx_holds (x := x) hrange
  obtain rfl := Host.Outcome.next.inj (hexec.symm.trans (exec_ldBVx_inRange hrange))
  refine ⟨_, _, _, _, hexec, ?digits, ?tens, ?ones, hholds 0 _ rfl, hholds 1 _ rfl, hholds 2 _ rfl, ?pc, ?frame⟩
  case digits => omega
  case tens => exact Nat.mod_lt _ (by decide)
  case ones => exact Nat.mod_lt _ (by decide)
  case pc => simp
  case frame => exact Laws.exec_keeps (.ldBVx x) s _ hexec (by simp)

/-- The optional step of I by x + 1, modulo 2^16 (decision D17). -/
theorem stepIndex_i_toNat (s : State) (x : Nibble) :
    (s.stepIndex x).i.toNat
      = if s.params.loadStoreIncrementsI then (s.i.toNat + x.toNat + 1) % 65536 else s.i.toNat := by
  have hx : (x.setWidth 16).toNat = x.toNat := BitVec.toNat_setWidth_of_le (by decide)
  rw [State.stepIndex_eq]
  dsimp only
  split
  · rw [BitVec.toNat_add, BitVec.toNat_add, hx]
    simp
  · rfl

/-- A block transfer that leaves a state `u` with I, PC, parameters and STATUS of `s`, then ends with the optional step of I:
registers and memory are those of `u`. -/
theorem exec_of_stepIndex {i : Instr} {s u : State} {x : Nibble} {touched : Part → Prop}
    (h : exec i s = .next ((u.stepIndex x).advance.finish false)) (hi : u.i = s.i) (hpc : u.pc = s.pc)
    (hparams : u.params = s.params) (hstatus : u.status = s.status)
    (hwrites : Laws.writes s i = fun p => touched p ∨ (s.params.loadStoreIncrementsI = true ∧ p = .index)) :
    ∃ t, exec i s = .next t ∧ (∀ r, t.getV r = u.getV r) ∧ (∀ a, t.memRead a = u.memRead a) ∧
      t.i.toNat = (if s.params.loadStoreIncrementsI then (s.i.toNat + x.toNat + 1) % 65536 else s.i.toNat) ∧
      t.pc = s.pc + 2#16 ∧ Keeps (fun p => touched p ∨ p = .index) s t := by
  refine ⟨_, h, fun r => State.stepIndex_getV u x r, fun a => State.stepIndex_memRead u x a, ?index, ?pc, fun p hp => ?frame⟩
  case index => rw [← hi, ← hparams]; exact stepIndex_i_toNat u x
  case pc => rw [State.finish_pc, State.advance_pc, State.stepIndex_pc, hpc]
  case frame =>
    have hframe := Laws.exec_keeps i s _ h ((State.stepIndex_status u x).trans hstatus)
    rw [hwrites] at hframe
    exact hframe p fun hwritten => hp (hwritten.imp_right And.right)

/-- Settles O47: the block stored is V[0]..V[x], and I moves after it. -/
theorem blockStore : Obligations.BlockStore := by
  intro x s hrange
  have hfit : s.i.toNat + (s.regsUpTo x).length ≤ 0x1000 := by
    rw [State.regsUpTo_length]
    exact Nat.succ_le_succ hrange
  obtain ⟨t, hexec, -, hmem, hframe⟩ := exec_of_stepIndex (exec_ldMemVx_inRange hrange) (State.putBytes_i _ _ _)
    (State.putBytes_pc _ _ _) (State.putBytes_params _ _ _) (State.putBytes_status _ _ _) rfl
  refine ⟨t, hexec, fun j hj => ?_, hframe⟩
  rw [hmem]
  exact putBytes_holds s hfit j _ (regsUpTo_getElem?_of_le s hj)

/-! ### The block load (42_index_memory.md R176) -/

theorem exec_ldVxMem_of_readBlock {x : Nibble} {s : State} {bytes : List Byte}
    (h : s.readBlock (s.effAddr 0) (x.toNat + 1) = some bytes) :
    exec (.ldVxMem x) s = .next (((s.loadRegs bytes).stepIndex x).advance.finish false) := by
  simp only [exec, execLdVxMem, h, complete]

/-- A block read inside memory reads what single accesses read. -/
theorem memRead_of_readBlock {s : State} {a n k : Nat} {bytes : List Byte} (h : s.readBlock a n = some bytes) (hk : k < n) :
    s.memRead (a + k) = bytes[k]? := by
  obtain ⟨hin, rfl⟩ := (State.readBlock_eq_some s a n bytes).mp h
  have hle : a + k ≤ 0xFFF := by
    rw [inBounds_iff] at hin
    omega
  rw [State.memRead_eq, if_pos hle]
  simp [hk]

/-- A register that a block load reaches takes the byte at its place in the block. -/
theorem memRead_eq_loadRegs_getV {s : State} {a n : Nat} {bytes : List Byte} {r : Nibble}
    (h : s.readBlock a n = some bytes) (hr : r.toNat < n) : s.memRead (a + r.toNat) = some ((s.loadRegs bytes).getV r) := by
  have hlen : bytes.length = n := by
    obtain ⟨-, rfl⟩ := (State.readBlock_eq_some s a n bytes).mp h
    simp
  rw [memRead_of_readBlock h hr, State.loadRegs_getV, List.getElem?_eq_getElem (hlen ▸ hr), Option.getD_some]

/-- Settles O48: the whole block is read, then V[0]..V[x] take it, and I moves after it. -/
theorem blockLoad : Obligations.BlockLoad := by
  intro x s hrange
  obtain ⟨bytes, hread⟩ : ∃ bytes, s.readBlock (s.effAddr 0) (x.toNat + 1) = some bytes :=
    ⟨_, (State.readBlock_eq_some _ _ _ _).mpr ⟨(inBounds_effAddr_iff s x.toNat).mpr hrange, rfl⟩⟩
  obtain ⟨t, hexec, hreg, -, hframe⟩ := exec_of_stepIndex (exec_ldVxMem_of_readBlock hread) (State.loadRegs_i _ _)
    (State.loadRegs_pc _ _) (State.loadRegs_params _ _) (State.loadRegs_status _ _) rfl
  refine ⟨t, hexec, fun r hr => ?_, hframe⟩
  rw [hreg, effAddr_eq]
  exact memRead_eq_loadRegs_getV hread (Nat.lt_succ_of_le hr)

end Sys2Proof.Proofs
end

section
/-! SUPPORT. The display (43_display.md): CLS writes the blank framebuffer; a DRW that finds its sprite in memory ends in one blend of it.
What CLS then DRW, and DRW twice, do to the pixels follows from what each does alone. -/

namespace Sys2Proof.Proofs

open Sys2Proof.Machine Sys2Proof.Safety

/-! ### CLS (43_display.md R194) -/

theorem decodeOpcode_of_and_00E0 {w : Word} (h : w &&& 0xF0FF#16 = 0x00E0#16) :
    decodeOpcode w = some (.cls (xField w)) := by
  have hrow : (rowOf (.cls 0)).selects w = true := beq_iff_eq.mpr h
  obtain ⟨hop, hkk⟩ : opField w = 0x0#4 ∧ kkField w = 0xE0#8 := fields_of_selects_F0FF hrow
  simp only [decodeOpcode_of_opField_0 hop, decodeFamily0, hkk]

theorem blankFb_pixel (r : Fin 32) (c : Fin 64) : Framebuffer.pixel blankFb r c = false := by
  have hrow : blankFb[r] = 0#64 := Vector.getElem_replicate r.isLt
  rw [Framebuffer.pixel, hrow, BitVec.getMsbD_zero]

theorem not_lit_of_fb_eq_blankFb {t : State} (h : t.fb = blankFb) (r : Fin 32) (c : Fin 64) : ¬ Lit t r c := by
  rw [Lit, h, blankFb_pixel]
  exact Bool.false_ne_true

/-- Settles O51: the decoder leaves the `x` nibble open (decision D10), and the one part written is the framebuffer. -/
theorem clsClears : Obligations.ClsClears :=
  ⟨fun _ => decodeOpcode_of_and_00E0, fun x s =>
    ⟨_, rfl, not_lit_of_fb_eq_blankFb rfl, rfl, rfl, Laws.exec_keeps (.cls x) s _ rfl rfl⟩⟩

/-! ### A sprite in memory (43_display.md R191) -/

/-- A byte that memory holds lies inside it. -/
theorem le_and_byteAt_of_memRead {s : State} {a : Nat} {b : Byte} (h : s.memRead a = some b) : a ≤ 0xFFF ∧ s.byteAt a = b := by
  rw [State.memRead_eq, Option.ite_none_right_eq_some] at h
  exact h.imp_right Option.some.inj

/-- The last byte of a block in memory bounds the whole block; an empty block needs no memory (decision D13). -/
theorem inBounds_of_holds {s : State} {a : Nat} {bs : List Byte} (h : Holds s a bs) : inBounds a bs.length = true := by
  rw [inBounds_iff]
  by_cases hlen : bs.length = 0
  · exact .inl hlen
  · obtain ⟨hin, -⟩ := le_and_byteAt_of_memRead (h (bs.length - 1) _ (List.getElem?_eq_getElem (by omega)))
    exact .inr (by omega)

/-- A block read finds the block that memory holds. -/
theorem readBlock_of_holds {s : State} {a : Nat} {bs : List Byte} (h : Holds s a bs) : s.readBlock a bs.length = some bs := by
  refine (State.readBlock_eq_some _ _ _ _).mpr ⟨inBounds_of_holds h, List.ext_getElem (by simp) fun k hk _ => ?_⟩
  obtain ⟨-, hbyte⟩ := le_and_byteAt_of_memRead (h k _ (List.getElem?_eq_getElem hk))
  rw [List.getElem_map, List.getElem_range, hbyte]

/-- Two states with the same memory hold the same blocks. -/
theorem holds_of_memRead_eq {s t : State} {a : Nat} {bs : List Byte} (h : Holds s a bs)
    (hmem : ∀ k, t.memRead k = s.memRead k) : Holds t a bs :=
  fun k b hk => (hmem (a + k)).trans (h k b hk)

/-! ### DRW (43_display.md R190-R193, R195) -/

/-- With its sprite in memory, DRW blends it at (V[x], V[y]), writes the collision flag to VF, and completes. -/
theorem exec_drw_of_holds {x y n : Nibble} {s : State} {rows : List Byte} (hlen : rows.length = n.toNat)
    (h : Holds s (s.effAddr 0) rows) :
    exec (.drw x y n) s = .next ((((s.setFb (drawSprite s.fb (s.getV x) (s.getV y) rows).1).setV vf
      (flagByte (drawSprite s.fb (s.getV x) (s.getV y) rows).2)).advance).finish true) := by
  have hread : s.readBlock (s.effAddr 0) n.toNat = some rows := hlen ▸ readBlock_of_holds h
  simp only [exec, execDrw, hread, complete]

/-- A sprite has at most 15 rows, so no two of them land on one row of the framebuffer. -/
theorem length_le_of_eq_toNat {n : Nibble} {rows : List Byte} (hlen : rows.length = n.toNat) : rows.length ≤ 32 := by
  have hn := n.isLt
  omega

/-- Settles O52: the pixels and the flag are those of `drawSprite`, and only the framebuffer and VF are written. -/
theorem drawTogglesCoveredPixels : Obligations.DrawTogglesCoveredPixels := by
  intro x y n s rows hlen hholds
  have hshort := length_le_of_eq_toNat hlen
  have hexec := exec_drw_of_holds (x := x) (y := y) hlen hholds
  have hcollide := drawSprite_collide s.fb (s.getV x) (s.getV y) rows hshort
  refine ⟨_, hexec, drawSprite_pixel s.fb _ _ rows hshort, fun hlit => ?collision, fun hdark => ?noCollision, rfl, rfl,
    Laws.exec_keeps (.drw x y n) s _ hexec rfl⟩
  all_goals rw [State.finish_getV, State.advance_getV, State.setV_getV, if_pos rfl]
  case collision => rw [hcollide.mpr hlit, flagByte, if_pos rfl]
  case noCollision =>
    have hnone : ¬ (drawSprite s.fb (s.getV x) (s.getV y) rows).2 = true := fun hc => by
      obtain ⟨r, c, hcovers, hlit⟩ := hcollide.mp hc
      exact hdark r c hcovers hlit
    rw [flagByte, if_neg hnone]

/-! ### Two display instructions in a row (43_display.md R196, R197) -/

/-- Settles O53: CLS leaves the sprite and its coordinates where they were, and on dark pixels a toggle is a lit pixel. -/
theorem clearThenDraw : Obligations.ClearThenDraw := by
  intro x₀ x y n s rows hlen hholds
  obtain ⟨-, hcls⟩ := clsClears
  obtain ⟨t, hclear, hdark, -, -, hkeeps⟩ := hcls x₀ s
  have hreg : ∀ r, t.getV r = s.getV r := fun r => hkeeps (.reg r) nofun
  have hindex : t.i = s.i := hkeeps .index nofun
  have hmem : ∀ a, t.memRead a = s.memRead a := fun a => hkeeps (.byte a) nofun
  have hsprite : Holds t (t.effAddr 0) rows := by
    rw [effAddr_eq, hindex]
    exact holds_of_memRead_eq hholds hmem
  obtain ⟨u, hdraw, hpixels, -, hflag, -⟩ := drawTogglesCoveredPixels x y n t rows hlen hsprite
  rw [hreg x, hreg y] at hpixels hflag
  refine ⟨t, u, hclear, hdraw, fun r c => ?_, hflag fun r c _ => hdark r c⟩
  rw [hpixels r c, iff_false_left (hdark r c), not_not]

/-- Framebuffers with the same pixels are equal. -/
theorem fb_eq_of_lit_iff {s t : State} (h : ∀ r c, Lit t r c ↔ Lit s r c) : t.fb = s.fb :=
  Vector.ext fun r hr => BitVec.eq_of_getMsbD_eq fun c hc => Bool.eq_iff_iff.mpr (h ⟨r, hr⟩ ⟨c, hc⟩)

/-- Settles O54: toggling the covered pixels twice undoes itself, and a covered pixel that was off is on for the second draw. -/
theorem drawTwiceRestores : Obligations.DrawTwiceRestores := by
  intro x y n s rows hlen hholds
  obtain ⟨t, hfirst, hpixels, -⟩ := drawTogglesCoveredPixels x y n s rows hlen hholds
  refine ⟨t, hfirst, fun u hfb hindex hx hy hsprite => ?_⟩
  rw [effAddr_eq, ← hindex, ← effAddr_eq] at hsprite
  obtain ⟨v, hsecond, hpixels', hcollision, -⟩ := drawTogglesCoveredPixels x y n u rows hlen hsprite
  rw [hx, hy] at hpixels' hcollision
  have hbetween : ∀ r c, Lit u r c ↔ (Lit s r c ↔ ¬ Covers (s.getV x) (s.getV y) rows r c) := by
    intro r c
    rw [Lit, hfb]
    exact hpixels r c
  refine ⟨v, hsecond, fb_eq_of_lit_iff fun r c => ?restored, fun ⟨r, c, hcovers, hoff⟩ => hcollision ⟨r, c, hcovers, ?lit⟩⟩
  case restored =>
    rw [hpixels' r c, hbetween r c]
    tauto
  case lit => exact (hbetween r c).mpr (iff_of_false hoff (not_not_intro hcovers))

end Sys2Proof.Proofs
end

section
/-! SUPPORT. Keys and timers (44_keys_timers.md): the two key skips, the key wait, the timer transfers, and the delay timer along a run
of completed steps that leave it to the tick. -/

namespace Sys2Proof.Proofs

open Sys2Proof.Machine Sys2Proof.Safety

/-! ### Key skips (44_keys_timers.md R210-R212) -/

/-- The key that a register value names. -/
theorem keyAt_of_toNat_eq {s : State} {b : Byte} {k : Fin 16} (h : b.toNat = k.val) : s.keyAt b = some s.keys[k] := by
  have hlt : b.toNat < 16 := h ▸ k.isLt
  rw [State.keyAt_eq_some s b hlt]
  simp only [h, Fin.getElem_fin]

theorem exec_skp_of_keyAt {x : Nibble} {s : State} {pressed : Bool} (h : s.keyAt (s.getV x) = some pressed) :
    exec (.skp x) s = complete false (s.skipIf pressed) := by
  simp only [exec, execSkp, h]

theorem exec_sknp_of_keyAt {x : Nibble} {s : State} {pressed : Bool} (h : s.keyAt (s.getV x) = some pressed) :
    exec (.sknp x) s = complete false (s.skipIf !pressed) := by
  simp only [exec, execSknp, h]

/-- Settles O55: both forms skip on the key that V[x] names, or halt where it names none (decision D19). -/
theorem keySkips : Obligations.KeySkips := by
  intro x s
  refine ⟨fun k hk => ?key, fun hbeyond => ?noKey⟩
  case key =>
    have hkey := keyAt_of_toNat_eq (s := s) hk
    refine ⟨exec_of_skipIf (exec_skp_of_keyAt hkey) rfl, ?_⟩
    simpa only [Bool.not_eq_true', ← Bool.not_eq_true, ite_not] using exec_of_skipIf (exec_sknp_of_keyAt hkey) rfl
  case noKey =>
    have hkey : s.keyAt (s.getV x) = none := (State.keyAt_eq_none s _).mpr hbeyond
    constructor
    · simp only [exec, execSkp, hkey, haltAt_eq]
    · simp only [exec, execSknp, hkey, haltAt_eq]

/-! ### An effect, then PC + 2 -/

/-- A form whose effect is the state `u`, with PC and STATUS of `s`, and that then completes with PC + 2: its registers are those of
`u`, and its tick finds the timers of `u`. -/
theorem exec_of_advance {i : Instr} {s u : State} {touched : Part → Prop} (h : exec i s = complete false u.advance)
    (hpc : u.pc = s.pc) (hstatus : u.status = s.status) (hwrites : Laws.writes s i = touched) :
    ∃ t, exec i s = .next t ∧ (∀ r, t.getV r = u.getV r) ∧ Ended false u.dt u.st t ∧ t.pc = s.pc + 2#16 ∧ Keeps touched s t :=
  ⟨_, h, fun _ => rfl, u.advance.finish_ended false, congrArg (· + 2#16) hpc, hwrites ▸ Laws.exec_keeps i s _ h hstatus⟩

/-! ### The key wait (44_keys_timers.md R214) -/

@[simp] theorem keyByte_toNat (k : Fin 16) : (keyByte k).toNat = k.val := by
  have hk := k.isLt
  rw [keyByte, BitVec.toNat_ofNat]
  omega

theorem exec_ldVxK_of_pressedKeys_nil {x : Nibble} {s : State} (h : s.pressedKeys = []) : exec (.ldVxK x) s = .next s := by
  simp only [exec, execLdVxK, (choosePressed_eq_none _ _).mpr h, hold]

theorem exec_ldVxK_of_choosePressed {x : Nibble} {s : State} {j : Fin 16}
    (h : choosePressed s.pressedKeys (Config.waitKeyChoice s.draws) = some j) :
    exec (.ldVxK x) s = complete false (s.takeDraw.setV x (keyByte j)).advance := by
  simp only [exec, execLdVxK, h]

/-- With some key pressed, the draw chooses a pressed one (decision D18). -/
theorem exists_choosePressed_eq_some {s : State} {k : Fin 16} (hk : s.keys[k] = true) (c : Nibble) :
    ∃ j, choosePressed s.pressedKeys c = some j ∧ s.keys[j] = true := by
  have hmem : k ∈ s.pressedKeys := (s.mem_pressedKeys k).mpr hk
  have hchoice : choosePressed s.pressedKeys c ≠ none := fun hnone =>
    List.ne_nil_of_mem hmem ((choosePressed_eq_none _ _).mp hnone)
  obtain ⟨j, hj⟩ := Option.ne_none_iff_exists'.mp hchoice
  exact ⟨j, hj, (s.mem_pressedKeys j).mp (choosePressed_mem _ _ _ hj)⟩

/-- Settles O56: a hold with no key pressed; else the key chosen is a pressed one, and its index fits V[x]. -/
theorem keyWait : Obligations.KeyWait := by
  intro x s
  refine ⟨fun hnone => exec_ldVxK_of_pressedKeys_nil ((State.pressedKeys_eq_nil s).mpr hnone), fun k hk => ?_⟩
  obtain ⟨j, hchoice, hpressed⟩ := exists_choosePressed_eq_some hk (Config.waitKeyChoice s.draws)
  obtain ⟨t, hexec, hreg, -, hpc, hkeeps⟩ := exec_of_advance (exec_ldVxK_of_choosePressed hchoice) rfl rfl rfl
  refine ⟨t, j, hexec, hpressed, ?_, hpc, hkeeps⟩
  rw [hreg, State.setV_getV, if_pos rfl, keyByte_toNat]

/-! ### Timer transfers (44_keys_timers.md R213, R215, R216) -/

/-- Settles O57: Fx07 leaves both timers to the tick, Fx15 and Fx18 each write the one that it finds. -/
theorem timerTransfers : Obligations.TimerTransfers := by
  intro x s
  refine ⟨?fx07, ?fx15, ?fx18⟩
  case fx07 =>
    obtain ⟨t, hexec, hreg, hended, hpc, hkeeps⟩ :=
      exec_of_advance (i := .ldVxDt x) (s := s) (u := s.setV x s.dt) rfl rfl rfl rfl
    have hval : t.getV x = s.dt := by rw [hreg, State.setV_getV, if_pos rfl]
    exact ⟨t, hexec, hval, hended.dt, hpc, hkeeps⟩
  case fx15 =>
    obtain ⟨t, hexec, -, hended, hpc, hkeeps⟩ :=
      exec_of_advance (i := .ldDtVx x) (s := s) (u := s.setDt (s.getV x)) rfl rfl rfl rfl
    exact ⟨t, hexec, hended.dt, hended.st, hpc, hkeeps⟩
  case fx18 =>
    obtain ⟨t, hexec, -, hended, hpc, hkeeps⟩ :=
      exec_of_advance (i := .ldStVx x) (s := s) (u := s.setSt (s.getV x)) rfl rfl rfl rfl
    have hst : t.st.toNat = (s.getV x).toNat - 1 := hended.st
    have hbeep : t.beep = decide (1 < (s.getV x).toNat) := by
      rw [hended.beep, hst]
      exact decide_eq_decide.mpr Nat.sub_pos_iff_lt
    exact ⟨t, hexec, hst, hended.dt, hbeep, hpc, hkeeps⟩

/-! ### The delay timer along a run (44_keys_timers.md R217) -/

theorem dtBeforeTick_of_ne_ldDtVx {i : Instr} (s : State) (h : ∀ x, i ≠ .ldDtVx x) : dtBeforeTick s i = s.dt := by
  cases i with
  | ldDtVx x => exact absurd rfl (h x)
  | _ => rfl

/-- Each completed step that is no Fx15 takes one from DT, down to 0, and a KEYS write takes nothing. -/
theorem dt_toNat_of_quietSteps {n : Nat} {s t : State} (h : QuietSteps n s t) : t.dt.toNat = s.dt.toNat - n := by
  induction h with
  | zero => rfl
  | keys ks _ ih => exact ih
  | succ _ _ _ hquiet hcompletes ih =>
    have htick := (ended_of_completes hcompletes).dt
    rw [dtBeforeTick_of_ne_ldDtVx _ hquiet, ih, Nat.sub_sub] at htick
    exact htick

/-- A completed Fx07 has read DT as it stood before the step. -/
theorem getV_of_completes_ldVxDt {y : Nibble} {u w : State} (h : Completes (.ldVxDt y) u w) : w.getV y = u.dt := by
  obtain ⟨⟨w', hexec, hval, -⟩, -⟩ := timerTransfers y u
  obtain rfl : w' = w := Host.Outcome.next.inj (hexec.symm.trans h.answer)
  exact hval

/-- Settles O58: Fx15 leaves V[x] - 1 in DT, each quiet step takes one more, and Fx07 reads what is left. -/
theorem timerObservation : Obligations.TimerObservation := by
  intro x y s t u w m hwrite hquiet hread
  have hstart : t.dt.toNat = (s.getV x).toNat - 1 := (ended_of_completes hwrite).dt
  rw [getV_of_completes_ldVxDt hread, dt_toNat_of_quietSteps hquiet, hstart]

end Sys2Proof.Proofs
end

section
/-! SUPPORT. The three outcomes of a poll (30_encoding.md R104, 60_exceptions.md R253): what each leaves, and which one `pollKind`
names. -/

namespace Sys2Proof.Proofs

open Sys2Proof.Machine Sys2Proof.Safety

/-! ### The key wait at PC -/

/-- `atKeyWait` says of the fetched instruction what `Waiting` says of an instruction. -/
theorem atKeyWait_iff (s : State) :
    s.atKeyWait = true ↔ ∃ w i, s.fetch16 = some w ∧ decodeOpcode w = some i ∧ Waiting i s := by
  constructor
  · intro h
    unfold State.atKeyWait at h
    split at h
    · cases h
    next w hfetch =>
      split at h
      next x hdecode =>
        exact ⟨w, _, hfetch, hdecode, ⟨x, rfl⟩, (State.pressedKeys_eq_nil s).mp (List.isEmpty_iff.mp h)⟩
      · cases h
  · rintro ⟨w, i, hfetch, hdecode, ⟨x, rfl⟩, hkeys⟩
    simp only [State.atKeyWait, hfetch, hdecode, List.isEmpty_iff]
    exact (State.pressedKeys_eq_nil s).mpr hkeys

/-- The fetched instruction is the only one that can make the Machine wait. -/
theorem atKeyWait_iff_waiting {s : State} {w : Word} {i : Instr} (hfetch : s.fetch16 = some w)
    (hdecode : decodeOpcode w = some i) : s.atKeyWait = true ↔ Waiting i s := by
  rw [atKeyWait_iff]
  constructor
  · rintro ⟨w', i', hfetch', hdecode', hwait⟩
    obtain rfl : w = w' := Option.some.inj (hfetch.symm.trans hfetch')
    obtain rfl : i = i' := Option.some.inj (hdecode.symm.trans hdecode')
    exact hwait
  · exact fun hwait => ⟨w, i, hfetch, hdecode, hwait⟩

/-! ### What a poll leaves -/

/-- A poll halts with the opcode the fetch gave, or holds at a key wait with nothing changed, or finishes an instruction that is no
key wait. -/
theorem poll_cases {s t : State} (h : step s = .next t) :
    (∃ r, t = s.raiseHalt r s.fetch16) ∨
    (t = s ∧ s.status = .running ∧ s.atKeyWait = true) ∨
    (∃ (u : State) (drew : Bool), t = u.finish drew ∧ u.status = .running ∧ s.atKeyWait = false) := by
  obtain ⟨hrun, ⟨r, o, rfl, rfl⟩ | ⟨w, i, hfetch, hdecode, hexec⟩⟩ := Laws.step_cases s t h
  · exact .inl ⟨r, rfl⟩
  · have hwaiting := atKeyWait_iff_waiting hfetch hdecode
    obtain ⟨rfl, hwait⟩ | ⟨r, rfl⟩ | ⟨u, drew, rfl, hstatus, -, -, -, -, -, -, hnoWait⟩ := Laws.exec_cases i s t hexec
    · exact .inr (.inl ⟨rfl, hrun, hwaiting.mpr hwait⟩)
    · rw [encode_of_decodeOpcode hdecode, ← hfetch]
      exact .inl ⟨r, rfl⟩
    · exact .inr (.inr ⟨u, drew, rfl, hstatus.trans hrun, Bool.eq_false_iff.mpr (mt hwaiting.mp hnoWait)⟩)

/-- Settles O10: of the three outcomes only the halt leaves STATUS halted, and its record is what `raiseHalt` wrote. -/
theorem haltsArePrecise : Obligations.HaltsArePrecise := by
  intro s t rec hrun hstep hhalted
  obtain ⟨r, rfl⟩ | ⟨rfl, -, -⟩ | ⟨u, drew, rfl, hstatus, -⟩ := poll_cases hstep
  · obtain rfl := RunStatus.halted.inj hhalted
    exact ⟨rfl, rfl, rfl⟩
  · rw [hrun] at hhalted
    cases hhalted
  · rw [State.finish_status, hstatus] at hhalted
    cases hhalted

/-! ### Which outcome `pollKind` names -/

theorem pollKind_of_step {s t : State} (h : step s = .next t) : s.pollKind = some (s.kindOf t) := by
  simp only [State.pollKind, h]

theorem exists_step_of_pollKind {s : State} {k : PollKind} (h : s.pollKind = some k) :
    ∃ t, step s = .next t ∧ s.kindOf t = k := by
  unfold State.pollKind at h
  split at h
  next t hstep => exact ⟨t, hstep, Option.some.inj h⟩
  · cases h
  · cases h

@[simp] theorem kindOf_raiseHalt (s u : State) (r : HaltReason) (o : Option Word) : s.kindOf (u.raiseHalt r o) = .halt := rfl

theorem kindOf_of_running {s t : State} (h : t.status = .running) :
    s.kindOf t = if s.atKeyWait then .hold else .next := by
  simp only [State.kindOf, h]

/-- Settles O11: of the three outcomes only the one that changes nothing is a hold. -/
theorem holdOnlyAtKeyWait : Obligations.HoldOnlyAtKeyWait := by
  intro s hpoll
  obtain ⟨t, hstep, hkind⟩ := exists_step_of_pollKind hpoll
  obtain ⟨r, rfl⟩ | ⟨rfl, -, hwait⟩ | ⟨u, drew, rfl, hstatus, hnoWait⟩ := poll_cases hstep
  · cases hkind
  · obtain ⟨w, i, hfetch, hdecode, ⟨x, rfl⟩, hkeys⟩ := (atKeyWait_iff t).mp hwait
    exact ⟨hstep, w, x, hfetch, hdecode, hkeys⟩
  · rw [kindOf_of_running (u.finish_status drew ▸ hstatus), hnoWait] at hkind
    cases hkind

/-- Settles O13: of the three outcomes only the finished instruction is a Next, and its end sets BEEP from the ticked ST. -/
theorem beepFollowsSoundTimer : Obligations.BeepFollowsSoundTimer := by
  intro s t hpoll hstep
  have hkind : s.kindOf t = .next := Option.some.inj ((pollKind_of_step hstep).symm.trans hpoll)
  obtain ⟨r, rfl⟩ | ⟨rfl, hrun, hwait⟩ | ⟨u, drew, rfl, -⟩ := poll_cases hstep
  · cases hkind
  · rw [kindOf_of_running hrun, hwait] at hkind
    cases hkind
  · exact (u.finish_ended drew).beep

end Sys2Proof.Proofs
end

section
/-! SUPPORT. The host's interactions (60_exceptions.md R248): what each does to the Machine. -/

namespace Sys2Proof.Proofs

open Sys2Proof.Machine

theorem load_tooLong {s : State} {image : List Byte} (h : 3584 < image.length) : s.load image = .fault .loadError := by
  have hfits : ¬ imageFits image = true := by
    rw [imageFits, decide_eq_true_iff]
    exact Nat.not_le.mpr h
  rw [State.load, if_neg hfits]

theorem act_load_of_loadError {σ : Session} {image : List Byte} (hphase : σ.phase = .constructed)
    (h : σ.machine.load image = .fault .loadError) :
    Session.act σ (.load image) = .next ⟨.loadCalled, σ.machine, .loadError⟩ := by
  simp only [Session.act, hphase, h]

theorem act_writeKeys_of_running {σ : Session} (ks : Vector Bool 16) (h : σ.machine.status = .running) :
    Session.act σ (.writeKeys ks) = .next ⟨σ.phase, σ.machine.writeKeys ks, .nothing⟩ := by
  simp only [Session.act, h]

theorem act_writeKeys_of_halted {σ : Session} (ks : Vector Bool 16) {rec : ErrorRecord} (h : σ.machine.status = .halted rec) :
    Session.act σ (.writeKeys ks) = .refused .keysOutsideLifecycle := by
  simp only [Session.act, h]

/-- The session's step is the Machine's own. -/
theorem step_of_act_step {σ τ : Session} (h : Session.act σ .step = .next τ) : step σ.machine = .next τ.machine := by
  simp only [Session.act] at h
  split at h
  next m hstep =>
    cases h
    exact hstep
  · cases h
  · cases h

/-- Settles O59: each interaction's own rule, with the Machine it leaves. -/
theorem hostTouchesOnlyItsParts : Obligations.HostTouchesOnlyItsParts := by
  intro σ
  refine ⟨fun image hphase hlong => ?load, fun ks hrun => ?keys, fun ks _ => act_writeKeys_of_halted ks,
    fun _ => step_of_act_step⟩
  case load => exact ⟨_, act_load_of_loadError hphase (load_tooLong hlong), rfl, rfl⟩
  case keys => exact ⟨_, act_writeKeys_of_running ks hrun, rfl, Laws.writeKeys_eq σ.machine ks⟩

end Sys2Proof.Proofs
end

section
/-! SUPPORT. Memory after construction and after `load` (70_reset_and_hazards.md R272-R275), and what comes before a program runs
(70_reset_and_hazards.md R276): a load that can be made once, or a first step that halts. -/

namespace Sys2Proof.Proofs

open Sys2Proof.Machine Sys2Proof.Safety

/-! ### Memory after construction (70_reset_and_hazards.md R272, 10_state.md R51) -/

/-- A legal font ends below the entry point. -/
theorem fontBase_add_80_le {p : Params} (hp : p.wellFormed = true) : p.fontBase.toNat + 80 ≤ 0x200 :=
  Nat.add_le_add_right (of_decide_eq_true hp) 80

theorem resetByte_fontBase_add (p : Params) {k : Nat} (hk : k < 80) :
    resetByte p (p.fontBase.toNat + k) = p.fontGlyphs[k] := by
  simp [resetByte, hk]

theorem resetByte_of_not_font {p : Params} {a : Nat} (h : a < p.fontBase.toNat ∨ p.fontBase.toNat + 80 ≤ a) :
    resetByte p a = 0x00#8 := by
  have hnot : ¬ (p.fontBase.toNat ≤ a ∧ a - p.fontBase.toNat < 80) := by omega
  rw [resetByte, dif_neg hnot]

theorem construct_memRead (p : Params) {a : Nat} (ha : a ≤ 0xFFF) :
    (State.construct p).memRead a = some (resetByte p a) := by
  rw [State.memRead_eq, if_pos ha, State.construct_byteAt]

/-- From the entry point on nothing but 0x00 stands in memory (decision D2). -/
theorem construct_memRead_of_progStart_le {p : Params} {a : Nat} (hp : p.wellFormed = true) (hlow : 0x200 ≤ a)
    (hhigh : a ≤ 0xFFF) : (State.construct p).memRead a = some 0x00#8 := by
  rw [construct_memRead p hhigh, resetByte_of_not_font (.inr ((fontBase_add_80_le hp).trans hlow))]

/-- Settles O24: by the three ranges, inside the font, inside memory around it, and above memory. -/
theorem constructionMemory : Obligations.ConstructionMemory := by
  intro p hp
  have hfont := fontBase_add_80_le hp
  refine ⟨fun d r hd hr => ?font, fun a ha hout => ?zero, fun a ha => ?above⟩
  case font =>
    have hk : 5 * d + r < 80 := by omega
    rw [Nat.add_assoc, construct_memRead p (by omega), resetByte_fontBase_add p hk, Vector.getElem?_eq_getElem hk]
  case zero => rw [construct_memRead p ha, resetByte_of_not_font hout]
  case above => rw [State.memRead_eq, if_neg (Nat.not_le.mpr ha)]

/-! ### The two results of a load (70_reset_and_hazards.md R274, R275) -/

theorem load_of_length_le (s : State) {image : List Byte} (h : image.length ≤ 3584) :
    s.load image = .next (s.putBytes 0x200 image) :=
  if_pos (decide_eq_true h)

/-- Settles O25: a load is one block write, which ends inside memory; behind it memory is as construction left it. -/
theorem loadPlacesImage : Obligations.LoadPlacesImage := by
  intro s image hlen
  have hfit : 0x200 + image.length ≤ 0x1000 := by omega
  have hframe : Keeps (bytesFrom 0x200 image.length) s (s.putBytes 0x200 image) := Laws.putBytes_keeps s image _ _ rfl
  refine ⟨_, load_of_length_le s hlen, putBytes_holds s hfit, hframe, State.putBytes_pc _ _ _, State.putBytes_dt _ _ _,
    State.putBytes_st _ _ _, State.putBytes_dispChanged _ _ _, State.putBytes_beep _ _ _, ?behind⟩
  case behind =>
    rintro p hp rfl a hlow hhigh
    have hbehind : ¬ bytesFrom 0x200 image.length (.byte a) := by
      rintro ⟨b, hb, -, hlt⟩
      obtain rfl := Part.byte.inj hb
      omega
    have hsame : Part.same (.byte a) _ _ := hframe (.byte a) hbehind
    exact hsame.trans (construct_memRead_of_progStart_le hp (by omega) hhigh)

/-- Settles O26: a load errs on every image that is too long, and on none that fits. -/
theorem loadRejectsLongImages : Obligations.LoadRejectsLongImages := by
  intro s image
  refine ⟨⟨fun herror => ?tooLong, load_tooLong⟩, fun hlen => ⟨_, load_of_length_le s hlen.le⟩,
    load_of_length_le s (Nat.zero_le _)⟩
  case tooLong =>
    by_contra hshort
    rw [load_of_length_le s (Nat.not_lt.mp hshort)] at herror
    cases herror

/-! ### A load once, before the first step (70_reset_and_hazards.md R276, decision D30) -/

/-- A load and a step end the constructed phase, and nothing leads back to it. -/
theorem phaseAfter_ne_constructed {σ : Session} {a : HostAction}
    (h : (∃ image, a = .load image) ∨ a = .step ∨ σ.phase ≠ .constructed) : Laws.phaseAfter σ a ≠ .constructed := by
  obtain ⟨image, rfl⟩ | rfl | hphase := h
  · exact nofun
  · exact nofun
  · cases a with
    | load image => exact nofun
    | writeKeys ks => exact hphase
    | step => exact nofun

/-- Settles O27: outside the constructed phase every load is refused. -/
theorem loadOnceBeforeFirstStep : Obligations.LoadOnceBeforeFirstStep := by
  intro σ τ a other hact h
  have hphase : τ.phase ≠ .constructed := Laws.act_phase σ τ a hact ▸ phaseAfter_ne_constructed h
  exact ⟨hphase, Laws.act_load_refused τ other hphase⟩

/-! ### The first step with nothing loaded (70_reset_and_hazards.md R276) -/

/-- The entry point and the address behind it hold 0x00. -/
theorem construct_fetch16 {p : Params} (hp : p.wellFormed = true) : (State.construct p).fetch16 = some 0x0000#16 := by
  have hhi : (State.construct p).memRead 0x200 = some 0x00#8 := construct_memRead_of_progStart_le hp (by decide) (by decide)
  have hlo : (State.construct p).memRead 0x201 = some 0x00#8 := construct_memRead_of_progStart_le hp (by decide) (by decide)
  exact fetch16_of_memRead hhi hlo

/-- Settles O28: 0x0000 is no opcode of the table. -/
theorem firstStepWithoutLoadHalts : Obligations.FirstStepWithoutLoadHalts := by
  intro p hp
  have hdecode : decodeOpcode 0x0000#16 = none := by decide
  exact step_of_decodeOpcode_none rfl (construct_fetch16 hp) hdecode

end Sys2Proof.Proofs
end
